-- ==== Sys2Proof/Word.lean ====
section
/-! DEFINITION. The word types of the machine (R5, R11, R13, R14, R61). Every quantity is unsigned (R6). -/

namespace Sys2Proof

/-- A byte: a memory cell, a register, a timer, an immediate `NN` (R5, R61). -/
abbrev Byte := BitVec 8

/-- A 16-bit word: an instruction word, `I`, `pc`, a stack slot (R5, R13, R14, R15, R60). -/
abbrev Word := BitVec 16

/-- A 4-bit field of an instruction word used as a count, a height or a selector (R61). -/
abbrev Nibble := BitVec 4

/-- A register id: the 4-bit field `X` or `Y` (R11, R61). Every value names a register. -/
abbrev RegId := BitVec 4

/-- The 12-bit field `NNN`, an absolute byte address (R61, R63). -/
abbrev Addr12 := BitVec 12

/-- The id of the flag register `VF` = `V[15]` (R12). -/
abbrev flagReg : RegId := 15#4

end Sys2Proof
end

