-- ==== Sys2Proof/Syntax.lean ====
section
/-! DEFINITION. The instructions: the 34 mnemonics (R72), one constructor of `Instr` per row of the opcode map (R66)
with the operand fields of its format (R61, R62), and the assembler form of R72. -/

namespace Sys2Proof

/-- The 34 mnemonics, in the order of the opcode map (R66, R72). -/
inductive Mnemonic where
  | cls | ret | jp | call | sei | snei | se | ldi | addi
  | mov | or | and | xor | add | sub | shr | subn | shl | sne
  | ldx | jpv0 | rnd | drw | skp | sknp
  | gdt | wkey | sdt | sst | addx | font | bcd | stm | ldm
  deriving DecidableEq, Repr

/-- An instruction: one constructor per row of R66. Operand fields are bit vectors of the field's width (R61), so a value
out of a field's range cannot be written. -/
inductive Instr where
  /-- `00E0` clear display (R171). -/
  | cls
  /-- `00EE` return (R101). -/
  | ret
  /-- `1NNN` jump (R102). -/
  | jp (nnn : Addr12)
  /-- `2NNN` call (R103). -/
  | call (nnn : Addr12)
  /-- `3XNN` skip if equal to immediate (R105). -/
  | sei (x : RegId) (nn : Byte)
  /-- `4XNN` skip if not equal to immediate (R106). -/
  | snei (x : RegId) (nn : Byte)
  /-- `5XY0` skip if registers equal (R107). -/
  | se (x y : RegId)
  /-- `6XNN` load immediate (R121). -/
  | ldi (x : RegId) (nn : Byte)
  /-- `7XNN` add immediate (R122). -/
  | addi (x : RegId) (nn : Byte)
  /-- `8XY0` copy (R123). -/
  | mov (x y : RegId)
  /-- `8XY1` or (R124). -/
  | or (x y : RegId)
  /-- `8XY2` and (R125). -/
  | and (x y : RegId)
  /-- `8XY3` exclusive or (R126). -/
  | xor (x y : RegId)
  /-- `8XY4` add with carry flag (R127). -/
  | add (x y : RegId)
  /-- `8XY5` subtract (R128). -/
  | sub (x y : RegId)
  /-- `8XY6` shift right; `y` is decoded and ignored (R129, R69). -/
  | shr (x y : RegId)
  /-- `8XY7` subtract from (R130). -/
  | subn (x y : RegId)
  /-- `8XYE` shift left; `y` is decoded and ignored (R131, R69). -/
  | shl (x y : RegId)
  /-- `9XY0` skip if registers differ (R108). -/
  | sne (x y : RegId)
  /-- `ANNN` load index register (R151). -/
  | ldx (nnn : Addr12)
  /-- `BNNN` jump plus `V[0]` (R104). -/
  | jpv0 (nnn : Addr12)
  /-- `CXNN` random byte under a mask (R132). -/
  | rnd (x : RegId) (nn : Byte)
  /-- `DXYN` sprite draw (R172). -/
  | drw (x y : RegId) (n : Nibble)
  /-- `EX9E` skip if key pressed (R191). -/
  | skp (x : RegId)
  /-- `EXA1` skip if key not pressed (R192). -/
  | sknp (x : RegId)
  /-- `FX07` read the delay timer (R194). -/
  | gdt (x : RegId)
  /-- `FX0A` wait for a key (R193). -/
  | wkey (x : RegId)
  /-- `FX15` set the delay timer (R195). -/
  | sdt (x : RegId)
  /-- `FX18` set the sound timer (R196). -/
  | sst (x : RegId)
  /-- `FX1E` add to the index register (R152). -/
  | addx (x : RegId)
  /-- `FX29` glyph address (R153). -/
  | font (x : RegId)
  /-- `FX33` decimal digits (R154). -/
  | bcd (x : RegId)
  /-- `FX55` store `V[0..X]` (R155). -/
  | stm (x : RegId)
  /-- `FX65` load `V[0..X]` (R156). -/
  | ldm (x : RegId)
  deriving DecidableEq, Repr

/-- The mnemonic of an instruction (R66, R72). -/
def Instr.mnemonic : Instr → Mnemonic
  | .cls => .cls
  | .ret => .ret
  | .jp _ => .jp
  | .call _ => .call
  | .sei _ _ => .sei
  | .snei _ _ => .snei
  | .se _ _ => .se
  | .ldi _ _ => .ldi
  | .addi _ _ => .addi
  | .mov _ _ => .mov
  | .or _ _ => .or
  | .and _ _ => .and
  | .xor _ _ => .xor
  | .add _ _ => .add
  | .sub _ _ => .sub
  | .shr _ _ => .shr
  | .subn _ _ => .subn
  | .shl _ _ => .shl
  | .sne _ _ => .sne
  | .ldx _ => .ldx
  | .jpv0 _ => .jpv0
  | .rnd _ _ => .rnd
  | .drw _ _ _ => .drw
  | .skp _ => .skp
  | .sknp _ => .sknp
  | .gdt _ => .gdt
  | .wkey _ => .wkey
  | .sdt _ => .sdt
  | .sst _ => .sst
  | .addx _ => .addx
  | .font _ => .font
  | .bcd _ => .bcd
  | .stm _ => .stm
  | .ldm _ => .ldm

/-- What an assembler operand is (R72): a register `Vx`, a byte `nn`, an address `nnn` or a nibble `n`. -/
inductive OperandKind where
  | reg | byte | addr | nibble
  deriving DecidableEq, Repr

/-- The operands the syntax of R72 gives each mnemonic, in order. -/
def Mnemonic.operandKinds : Mnemonic → List OperandKind
  | .cls | .ret => []
  | .jp | .call | .ldx | .jpv0 => [.addr]
  | .sei | .snei | .ldi | .addi | .rnd => [.reg, .byte]
  | .se | .sne | .mov | .or | .and | .xor | .add | .sub | .shr | .subn | .shl => [.reg, .reg]
  | .drw => [.reg, .reg, .nibble]
  | .skp | .sknp | .gdt | .wkey | .sdt | .sst | .addx | .font | .bcd | .stm | .ldm => [.reg]

/-- True for the two mnemonics whose second operand may be left out: `SHR Vx`, `SHL Vx` (R72). -/
def Mnemonic.secondOptional : Mnemonic → Bool
  | .shr | .shl => true
  | _ => false

/-- One assembler line of R72: a mnemonic and its operands as numbers, not yet checked. -/
structure RawInstr where
  mnemonic : Mnemonic
  operands : List Nat
  deriving DecidableEq, Repr

/-- The assembler line of an instruction, with every operand written out (R72). -/
def Instr.raw : Instr → RawInstr
  | .cls => ⟨.cls, []⟩
  | .ret => ⟨.ret, []⟩
  | .jp nnn => ⟨.jp, [nnn.toNat]⟩
  | .call nnn => ⟨.call, [nnn.toNat]⟩
  | .sei x nn => ⟨.sei, [x.toNat, nn.toNat]⟩
  | .snei x nn => ⟨.snei, [x.toNat, nn.toNat]⟩
  | .se x y => ⟨.se, [x.toNat, y.toNat]⟩
  | .ldi x nn => ⟨.ldi, [x.toNat, nn.toNat]⟩
  | .addi x nn => ⟨.addi, [x.toNat, nn.toNat]⟩
  | .mov x y => ⟨.mov, [x.toNat, y.toNat]⟩
  | .or x y => ⟨.or, [x.toNat, y.toNat]⟩
  | .and x y => ⟨.and, [x.toNat, y.toNat]⟩
  | .xor x y => ⟨.xor, [x.toNat, y.toNat]⟩
  | .add x y => ⟨.add, [x.toNat, y.toNat]⟩
  | .sub x y => ⟨.sub, [x.toNat, y.toNat]⟩
  | .shr x y => ⟨.shr, [x.toNat, y.toNat]⟩
  | .subn x y => ⟨.subn, [x.toNat, y.toNat]⟩
  | .shl x y => ⟨.shl, [x.toNat, y.toNat]⟩
  | .sne x y => ⟨.sne, [x.toNat, y.toNat]⟩
  | .ldx nnn => ⟨.ldx, [nnn.toNat]⟩
  | .jpv0 nnn => ⟨.jpv0, [nnn.toNat]⟩
  | .rnd x nn => ⟨.rnd, [x.toNat, nn.toNat]⟩
  | .drw x y n => ⟨.drw, [x.toNat, y.toNat, n.toNat]⟩
  | .skp x => ⟨.skp, [x.toNat]⟩
  | .sknp x => ⟨.sknp, [x.toNat]⟩
  | .gdt x => ⟨.gdt, [x.toNat]⟩
  | .wkey x => ⟨.wkey, [x.toNat]⟩
  | .sdt x => ⟨.sdt, [x.toNat]⟩
  | .sst x => ⟨.sst, [x.toNat]⟩
  | .addx x => ⟨.addx, [x.toNat]⟩
  | .font x => ⟨.font, [x.toNat]⟩
  | .bcd x => ⟨.bcd, [x.toNat]⟩
  | .stm x => ⟨.stm, [x.toNat]⟩
  | .ldm x => ⟨.ldm, [x.toNat]⟩

end Sys2Proof
end

