-- ==== Sys2Proof/WellFormed.lean ====
section
/-! DEFINITION. Well-formedness: the checks an assembler line has to pass (R72: the number of operands; a register id
0..15, a byte 0..255, an address 0..4095, a nibble 0..15), and the instruction a checked line stands for. An `Instr`
carries its ranges in its types, so the line of every `Instr` passes. -/

namespace Sys2Proof

/-- How many values an operand of this kind has (R61, R72). -/
def OperandKind.bound : OperandKind → Nat
  | .reg => 16
  | .byte => 256
  | .addr => 4096
  | .nibble => 16

/-- The operands of the line with the optional second operand of `SHR Vx` and `SHL Vx` filled in as 0 (R72). -/
def RawInstr.fullOperands (r : RawInstr) : List Nat :=
  if r.mnemonic.secondOptional && r.operands.length == 1 then r.operands ++ [0] else r.operands

/-- Check 1: the line has as many operands as its mnemonic takes (R72). -/
def RawInstr.countOk (r : RawInstr) : Bool :=
  r.fullOperands.length == r.mnemonic.operandKinds.length

/-- Check 2: every operand is in the range of its kind (R72). -/
def RawInstr.rangesOk (r : RawInstr) : Bool :=
  (r.fullOperands.zip r.mnemonic.operandKinds).all fun p => p.1 < p.2.bound

/-- A well-formed assembler line (R72). -/
def RawInstr.wf (r : RawInstr) : Bool := r.countOk && r.rangesOk

/-- A well-formed instruction: its assembler line passes every check. -/
abbrev Instr.WellFormed (i : Instr) : Prop := i.raw.wf = true

/-- The instruction of a line with its operands counted out; each number is cut to its field. -/
def RawInstr.build (r : RawInstr) : Option Instr :=
  match r.mnemonic, r.fullOperands with
  | .cls, [] => some .cls
  | .ret, [] => some .ret
  | .jp, [a] => some (.jp (BitVec.ofNat 12 a))
  | .call, [a] => some (.call (BitVec.ofNat 12 a))
  | .sei, [x, k] => some (.sei (BitVec.ofNat 4 x) (BitVec.ofNat 8 k))
  | .snei, [x, k] => some (.snei (BitVec.ofNat 4 x) (BitVec.ofNat 8 k))
  | .se, [x, y] => some (.se (BitVec.ofNat 4 x) (BitVec.ofNat 4 y))
  | .ldi, [x, k] => some (.ldi (BitVec.ofNat 4 x) (BitVec.ofNat 8 k))
  | .addi, [x, k] => some (.addi (BitVec.ofNat 4 x) (BitVec.ofNat 8 k))
  | .mov, [x, y] => some (.mov (BitVec.ofNat 4 x) (BitVec.ofNat 4 y))
  | .or, [x, y] => some (.or (BitVec.ofNat 4 x) (BitVec.ofNat 4 y))
  | .and, [x, y] => some (.and (BitVec.ofNat 4 x) (BitVec.ofNat 4 y))
  | .xor, [x, y] => some (.xor (BitVec.ofNat 4 x) (BitVec.ofNat 4 y))
  | .add, [x, y] => some (.add (BitVec.ofNat 4 x) (BitVec.ofNat 4 y))
  | .sub, [x, y] => some (.sub (BitVec.ofNat 4 x) (BitVec.ofNat 4 y))
  | .shr, [x, y] => some (.shr (BitVec.ofNat 4 x) (BitVec.ofNat 4 y))
  | .subn, [x, y] => some (.subn (BitVec.ofNat 4 x) (BitVec.ofNat 4 y))
  | .shl, [x, y] => some (.shl (BitVec.ofNat 4 x) (BitVec.ofNat 4 y))
  | .sne, [x, y] => some (.sne (BitVec.ofNat 4 x) (BitVec.ofNat 4 y))
  | .ldx, [a] => some (.ldx (BitVec.ofNat 12 a))
  | .jpv0, [a] => some (.jpv0 (BitVec.ofNat 12 a))
  | .rnd, [x, k] => some (.rnd (BitVec.ofNat 4 x) (BitVec.ofNat 8 k))
  | .drw, [x, y, n] => some (.drw (BitVec.ofNat 4 x) (BitVec.ofNat 4 y) (BitVec.ofNat 4 n))
  | .skp, [x] => some (.skp (BitVec.ofNat 4 x))
  | .sknp, [x] => some (.sknp (BitVec.ofNat 4 x))
  | .gdt, [x] => some (.gdt (BitVec.ofNat 4 x))
  | .wkey, [x] => some (.wkey (BitVec.ofNat 4 x))
  | .sdt, [x] => some (.sdt (BitVec.ofNat 4 x))
  | .sst, [x] => some (.sst (BitVec.ofNat 4 x))
  | .addx, [x] => some (.addx (BitVec.ofNat 4 x))
  | .font, [x] => some (.font (BitVec.ofNat 4 x))
  | .bcd, [x] => some (.bcd (BitVec.ofNat 4 x))
  | .stm, [x] => some (.stm (BitVec.ofNat 4 x))
  | .ldm, [x] => some (.ldm (BitVec.ofNat 4 x))
  | _, _ => none

/-- Assemble a line (R72): the instruction of a well-formed line, nothing for any other. -/
def RawInstr.assemble (r : RawInstr) : Option Instr :=
  if r.wf then r.build else none

end Sys2Proof
end

