-- ==== Sys2Proof/Decode.lean ====
section
/-! DEFINITION. Decoding and encoding of instruction words (R60 to R73): the opcode map's match and mask (R66), the total
decoder of R73, bytes in memory order (R48), the encoder written from the same formats (R62), and the assembler (R72). -/

namespace Sys2Proof

/-- Why bytes give no instruction. -/
inductive DecodeError where
  /-- The word matches no row of the opcode map (R67, R73). -/
  | unknownOpcode (w : Word)
  /-- Fewer than two bytes were given; an instruction is exactly two (R60). -/
  | truncated
  deriving DecidableEq, Repr

/-- The family selector `O`, bits 15:12 (R61). -/
def fieldO (w : Word) : Nibble := w.extractLsb' 12 4
/-- The field `X`, bits 11:8 (R61). -/
def fieldX (w : Word) : RegId := w.extractLsb' 8 4
/-- The field `Y`, bits 7:4 (R61). -/
def fieldY (w : Word) : RegId := w.extractLsb' 4 4
/-- The field `N`, bits 3:0 (R61). -/
def fieldN (w : Word) : Nibble := w.extractLsb' 0 4
/-- The field `NN`, bits 7:0 (R61). -/
def fieldNN (w : Word) : Byte := w.extractLsb' 0 8
/-- The field `NNN`, bits 11:0 (R61). -/
def fieldNNN (w : Word) : Addr12 := w.extractLsb' 0 12

/-- Family 0x0: all 12 low bits select (R65, R73). -/
def decodeFamily0 (w : Word) : Except DecodeError Instr :=
  if fieldNNN w = 0x0E0#12 then .ok .cls
  else if fieldNNN w = 0x0EE#12 then .ok .ret
  else .error (.unknownOpcode w)

/-- Family 0x5: the low nibble must be 0 (R65, R68). -/
def decodeFamily5 (w : Word) : Except DecodeError Instr :=
  if fieldN w = 0x0#4 then .ok (.se (fieldX w) (fieldY w)) else .error (.unknownOpcode w)

/-- Family 0x8: the low nibble selects (R65, R73). -/
def decodeFamily8 (w : Word) : Except DecodeError Instr :=
  if fieldN w = 0x0#4 then .ok (.mov (fieldX w) (fieldY w))
  else if fieldN w = 0x1#4 then .ok (.or (fieldX w) (fieldY w))
  else if fieldN w = 0x2#4 then .ok (.and (fieldX w) (fieldY w))
  else if fieldN w = 0x3#4 then .ok (.xor (fieldX w) (fieldY w))
  else if fieldN w = 0x4#4 then .ok (.add (fieldX w) (fieldY w))
  else if fieldN w = 0x5#4 then .ok (.sub (fieldX w) (fieldY w))
  else if fieldN w = 0x6#4 then .ok (.shr (fieldX w) (fieldY w))
  else if fieldN w = 0x7#4 then .ok (.subn (fieldX w) (fieldY w))
  else if fieldN w = 0xE#4 then .ok (.shl (fieldX w) (fieldY w))
  else .error (.unknownOpcode w)

/-- Family 0x9: the low nibble must be 0 (R65, R68). -/
def decodeFamily9 (w : Word) : Except DecodeError Instr :=
  if fieldN w = 0x0#4 then .ok (.sne (fieldX w) (fieldY w)) else .error (.unknownOpcode w)

/-- Family 0xE: the low byte selects (R65, R73). -/
def decodeFamilyE (w : Word) : Except DecodeError Instr :=
  if fieldNN w = 0x9E#8 then .ok (.skp (fieldX w))
  else if fieldNN w = 0xA1#8 then .ok (.sknp (fieldX w))
  else .error (.unknownOpcode w)

/-- Family 0xF: the low byte selects (R65, R73). -/
def decodeFamilyF (w : Word) : Except DecodeError Instr :=
  if fieldNN w = 0x07#8 then .ok (.gdt (fieldX w))
  else if fieldNN w = 0x0A#8 then .ok (.wkey (fieldX w))
  else if fieldNN w = 0x15#8 then .ok (.sdt (fieldX w))
  else if fieldNN w = 0x18#8 then .ok (.sst (fieldX w))
  else if fieldNN w = 0x1E#8 then .ok (.addx (fieldX w))
  else if fieldNN w = 0x29#8 then .ok (.font (fieldX w))
  else if fieldNN w = 0x33#8 then .ok (.bcd (fieldX w))
  else if fieldNN w = 0x55#8 then .ok (.stm (fieldX w))
  else if fieldNN w = 0x65#8 then .ok (.ldm (fieldX w))
  else .error (.unknownOpcode w)

/-- The decode function of R73, total on every 16-bit word: the top four bits select the family (R64). -/
def decodeWord (w : Word) : Except DecodeError Instr :=
  match (fieldO w).toNat with
  | 0x0 => decodeFamily0 w
  | 0x1 => .ok (.jp (fieldNNN w))
  | 0x2 => .ok (.call (fieldNNN w))
  | 0x3 => .ok (.sei (fieldX w) (fieldNN w))
  | 0x4 => .ok (.snei (fieldX w) (fieldNN w))
  | 0x5 => decodeFamily5 w
  | 0x6 => .ok (.ldi (fieldX w) (fieldNN w))
  | 0x7 => .ok (.addi (fieldX w) (fieldNN w))
  | 0x8 => decodeFamily8 w
  | 0x9 => decodeFamily9 w
  | 0xA => .ok (.ldx (fieldNNN w))
  | 0xB => .ok (.jpv0 (fieldNNN w))
  | 0xC => .ok (.rnd (fieldX w) (fieldNN w))
  | 0xD => .ok (.drw (fieldX w) (fieldY w) (fieldN w))
  | 0xE => decodeFamilyE w
  | _ => decodeFamilyF w

/-- Two bytes in memory order as a word: the byte at the lower address is bits 15:8 (R48). -/
def wordOfBytes (hi lo : Byte) : Word := hi ++ lo

/-- The bytes of a word in memory order: the high byte first (R48, R60). -/
def bytesOfWord (w : Word) : List Byte := [w.extractLsb' 8 8, w.extractLsb' 0 8]

/-- Decoding of any byte list: the instruction of its first two bytes and the rest, or the reason there is none. -/
def decode : List Byte → Except DecodeError (Instr × List Byte)
  | hi :: lo :: rest => (decodeWord (wordOfBytes hi lo)).map fun i => (i, rest)
  | _ => .error .truncated

/-- Format `A`: selector and address (R62). -/
def formatA (o : Nibble) (nnn : Addr12) : Word := o ++ nnn
/-- Format `XI`: selector, register, byte (R62). -/
def formatXI (o : Nibble) (x : RegId) (nn : Byte) : Word := (o ++ x) ++ nn
/-- Format `XY`, and `XYN` with a height for the last digit (R62). -/
def formatXY (o : Nibble) (x y : RegId) (s : Nibble) : Word := (o ++ x) ++ (y ++ s)
/-- Format `XS`: selector, register, literal low byte (R62). -/
def formatXS (o : Nibble) (x : RegId) (s : Byte) : Word := (o ++ x) ++ s

/-- The instruction word of an instruction, from the patterns of R66 in the formats of R62. -/
def encode : Instr → Word
  | .cls => 0x00E0#16
  | .ret => 0x00EE#16
  | .jp nnn => formatA 0x1#4 nnn
  | .call nnn => formatA 0x2#4 nnn
  | .sei x nn => formatXI 0x3#4 x nn
  | .snei x nn => formatXI 0x4#4 x nn
  | .se x y => formatXY 0x5#4 x y 0x0#4
  | .ldi x nn => formatXI 0x6#4 x nn
  | .addi x nn => formatXI 0x7#4 x nn
  | .mov x y => formatXY 0x8#4 x y 0x0#4
  | .or x y => formatXY 0x8#4 x y 0x1#4
  | .and x y => formatXY 0x8#4 x y 0x2#4
  | .xor x y => formatXY 0x8#4 x y 0x3#4
  | .add x y => formatXY 0x8#4 x y 0x4#4
  | .sub x y => formatXY 0x8#4 x y 0x5#4
  | .shr x y => formatXY 0x8#4 x y 0x6#4
  | .subn x y => formatXY 0x8#4 x y 0x7#4
  | .shl x y => formatXY 0x8#4 x y 0xE#4
  | .sne x y => formatXY 0x9#4 x y 0x0#4
  | .ldx nnn => formatA 0xA#4 nnn
  | .jpv0 nnn => formatA 0xB#4 nnn
  | .rnd x nn => formatXI 0xC#4 x nn
  | .drw x y n => formatXY 0xD#4 x y n
  | .skp x => formatXS 0xE#4 x 0x9E#8
  | .sknp x => formatXS 0xE#4 x 0xA1#8
  | .gdt x => formatXS 0xF#4 x 0x07#8
  | .wkey x => formatXS 0xF#4 x 0x0A#8
  | .sdt x => formatXS 0xF#4 x 0x15#8
  | .sst x => formatXS 0xF#4 x 0x18#8
  | .addx x => formatXS 0xF#4 x 0x1E#8
  | .font x => formatXS 0xF#4 x 0x29#8
  | .bcd x => formatXS 0xF#4 x 0x33#8
  | .stm x => formatXS 0xF#4 x 0x55#8
  | .ldm x => formatXS 0xF#4 x 0x65#8

/-- The two bytes of an instruction as they lie in memory (R60). -/
def encodeBytes (i : Instr) : List Byte := bytesOfWord (encode i)

/-- An operand of an assembler line (R72): a number, or a label where an address stands. -/
inductive AsmOperand where
  | num (n : Nat)
  | label (name : String)
  deriving DecidableEq, Repr

/-- A line of an assembler listing (R72): an instruction, `.org a`, `.byte b, ...` or `name:`. -/
inductive AsmLine where
  | instr (m : Mnemonic) (operands : List AsmOperand)
  | org (a : Nat)
  | byte (bs : List Nat)
  | label (name : String)
  deriving DecidableEq, Repr

/-- The address of the next byte after a line at address `a` (R60, R72). -/
def AsmLine.next (a : Nat) : AsmLine → Nat
  | .instr _ _ => a + 2
  | .org b => b
  | .byte bs => a + bs.length
  | .label _ => a

/-- The labels of a listing that starts at address `a`, with their addresses (R72). -/
def asmLabels : Nat → List AsmLine → List (String × Nat)
  | _, [] => []
  | a, .label name :: rest => (name, a) :: asmLabels a rest
  | a, line :: rest => asmLabels (line.next a) rest

/-- The number an operand stands for; nothing for a label that is not defined. -/
def AsmOperand.value (labels : List (String × Nat)) : AsmOperand → Option Nat
  | .num n => some n
  | .label name => labels.lookup name

/-- The bytes a line emits; nothing where an operand or a byte is out of its range (R72). -/
def AsmLine.bytes (labels : List (String × Nat)) : AsmLine → Option (List Byte)
  | .instr m operands => do
    let ns ← operands.mapM (AsmOperand.value labels)
    let i ← (RawInstr.mk m ns).assemble
    some (encodeBytes i)
  | .org _ => some []
  | .byte bs => bs.mapM fun b => if b < 256 then some (BitVec.ofNat 8 b) else none
  | .label _ => some []

/-- The bytes of a listing from address `a` on, each with its address, its labels known. -/
def asmEmit (labels : List (String × Nat)) : Nat → List AsmLine → Option (List (Nat × Byte))
  | _, [] => some []
  | a, line :: rest => do
    let bs ← line.bytes labels
    let tail ← asmEmit labels (line.next a) rest
    some (((List.range bs.length).map (a + ·)).zip bs ++ tail)

/-- Assemble a listing whose first line is at address `a` (R72). -/
def assembleListing (a : Nat) (lines : List AsmLine) : Option (List (Nat × Byte)) := asmEmit (asmLabels a lines) a lines

/-- The column `match` of the opcode map (R66). -/
def Mnemonic.matchWord : Mnemonic → Word
  | .cls => 0x00E0#16 | .ret => 0x00EE#16 | .jp => 0x1000#16 | .call => 0x2000#16
  | .sei => 0x3000#16 | .snei => 0x4000#16 | .se => 0x5000#16 | .ldi => 0x6000#16 | .addi => 0x7000#16
  | .mov => 0x8000#16 | .or => 0x8001#16 | .and => 0x8002#16 | .xor => 0x8003#16 | .add => 0x8004#16
  | .sub => 0x8005#16 | .shr => 0x8006#16 | .subn => 0x8007#16 | .shl => 0x800E#16 | .sne => 0x9000#16
  | .ldx => 0xA000#16 | .jpv0 => 0xB000#16 | .rnd => 0xC000#16 | .drw => 0xD000#16
  | .skp => 0xE09E#16 | .sknp => 0xE0A1#16
  | .gdt => 0xF007#16 | .wkey => 0xF00A#16 | .sdt => 0xF015#16 | .sst => 0xF018#16 | .addx => 0xF01E#16
  | .font => 0xF029#16 | .bcd => 0xF033#16 | .stm => 0xF055#16 | .ldm => 0xF065#16

/-- The column `mask` of the opcode map (R66). -/
def Mnemonic.maskWord : Mnemonic → Word
  | .cls | .ret => 0xFFFF#16
  | .jp | .call | .sei | .snei | .ldi | .addi | .ldx | .jpv0 | .rnd | .drw => 0xF000#16
  | .se | .mov | .or | .and | .xor | .add | .sub | .shr | .subn | .shl | .sne => 0xF00F#16
  | .skp | .sknp | .gdt | .wkey | .sdt | .sst | .addx | .font | .bcd | .stm | .ldm => 0xF0FF#16

/-- A word matches a row of the opcode map when `w & mask = match` (R64). -/
def Mnemonic.covers (m : Mnemonic) (w : Word) : Bool := w &&& m.maskWord == m.matchWord

/-- The instruction the decoder reads from an instruction whose bits are `w`, of which the table gives `nbits`: every
instruction is one 16-bit word (R60); bits at and above `nbits` are 0. -/
def decodeTableWord (nbits w : Nat) : Option Instr :=
  match decode (bytesOfWord (BitVec.ofNat 16 (w % 2 ^ nbits))) with
  | .ok (i, _) => some i
  | .error _ => none

end Sys2Proof
end

