-- ==== Sys2Proof/Machine/Time.lean ====
section
/-! DEFINITION. The type `TIME` of elapsed time: non-negative rational numbers of seconds (R5, R225), as a pair of naturals
so that a time is plain data and the kernel can compute with it (log 2). -/

namespace Sys2Proof

/-- A non-negative rational number of seconds, `num / (denPred + 1)`. The denominator is held less one, so that every pair
of naturals is a time (R225; DESIGN CHOICE, log 2). -/
structure Time where
  num : Nat
  denPred : Nat
  deriving DecidableEq, Repr, Inhabited

/-- The denominator, never 0. -/
def Time.den (t : Time) : Nat := t.denPred + 1

/-- The rational number a time stands for; statements about sums of times are made with it. -/
def Time.toRat (t : Time) : ℚ := (t.num : ℚ) / (t.den : ℚ)

/-- The time `n / d` in lowest terms; `d` is not 0. -/
def Time.ofFrac (n d : Nat) : Time := ⟨n / Nat.gcd n d, d / Nat.gcd n d - 1⟩

/-- No time at all. -/
def Time.zero : Time := ⟨0, 0⟩

/-- The exact sum, in lowest terms (R223: `acc + elapsed`). -/
def Time.add (a b : Time) : Time := Time.ofFrac (a.num * b.den + b.num * a.den) (a.den * b.den)

/-- Exact comparison (R223: `>=`). -/
def Time.le (a b : Time) : Bool := a.num * b.den ≤ b.num * a.den

/-- `TICK_PERIOD`: 1/60 of a second (R5, R223). -/
def tickPeriod : Time := ⟨1, 59⟩

end Sys2Proof
end

