-- ==== Sys2Proof/Config.lean ====
section
/-! DEFINITION. What is fixed for the machine and what is left free: the geometry (R5), the inputs of a cycle (R26, R81)
and the free values they take where nothing settles them (U4, U7, U8). The glyph table, a parameter with a default (R42),
stands in Machine/Memory.lean. -/

namespace Sys2Proof

/-- `MEM_SIZE` (R5, R40). -/
def memSize : Nat := 4096
/-- `LOAD_BASE`, the address the host loads an image at (R5, R229). -/
def loadBase : Nat := 0x200
/-- `MAX_IMAGE`, the most bytes of an image that are loaded (R5, R229). -/
def maxImage : Nat := 3584
/-- `FB_WIDTH` (R5, R20). -/
def fbWidth : Nat := 64
/-- `FB_HEIGHT` (R5, R20). -/
def fbHeight : Nat := 32

/-- A key event of the host: `key_down(k)` or `key_up(k)`. The number may be out of the range 0..15; such an event changes
nothing (R226). -/
inductive KeyEvent where
  | down (k : Nat)
  | up (k : Nat)
  deriving DecidableEq, Repr, Inhabited

/-- The inputs of one cycle (R26, R81): the key events that arrived since the snapshot of the cycle before (R89), the
elapsed time the host reports (R225) and the random draw (R24). -/
structure CycleInput where
  keyEvents : List KeyEvent
  elapsed : Time
  rnd : Byte
  deriving DecidableEq, Repr, Inhabited

/-- FREE VALUE (U4, R132): the random byte of cycle number `n`. Nothing constrains it (log 3). -/
opaque Config.freeRandom : Nat → BitVec 8

/-- FREE VALUE (U7, R225): the time the host reports with cycle number `n`. Nothing constrains it (log 4). -/
opaque Config.freeElapsed : Nat → Time

/-- FREE VALUE (U8, R89): the key events the host delivers before cycle number `n`. Nothing constrains it (log 5). -/
opaque Config.freeKeyEvents : Nat → List KeyEvent

/-- The inputs of cycle number `n` where nothing settles them. -/
def Config.freeInput (n : Nat) : CycleInput :=
  ⟨Config.freeKeyEvents n, Config.freeElapsed n, Config.freeRandom n⟩

end Sys2Proof
end

