-- ==== Sys2Proof/Machine/State.lean ====
section
/-! DEFINITION. The machine's state (R10, R22), the faults a cycle can report (R210), and the state after reset (R28). -/

namespace Sys2Proof.Machine

/-- A fault of a cycle, with the information R210 records. TAKEN, never a stop: by `State.raise` an instruction that raises
one leaves every item of state as it was and reports it as the cycle's `result` (R86, R219), and the machine goes on (R88).
`LoadError` is not among them: it is never the result of a cycle (R215). -/
inductive Fault where
  /-- Raised by CALL when `sp` = 16 (R211). Safe: reported as the spec reports it. -/
  | stackOverflow
  /-- Raised by RET when `sp` = 0 (R212). Safe: reported as the spec reports it. -/
  | stackUnderflow
  /-- Raised by the decode of a word that matches no instruction, with the word (R213). Safe: reported as the spec reports it. -/
  | unknownOpcode (w : Word)
  /-- Raised by the fetch, DRW, BCD, STM and LDM for an access above 0xFFF, with the lowest such address (R45, R214).
  Safe: reported as the spec reports it. -/
  | addressOutOfRange (addr : Nat)
  /-- Raised by SKP and SKNP when `V[X]` > 15, with that value (R197, R216). Safe: reported as the spec reports it. -/
  | keyIndexOutOfRange (value : Byte)
  deriving DecidableEq, Repr

/-- Why an instruction has no meaning. Every instruction has one, so no arm answers with this. -/
inductive Refusal where
  /-- Raised by an arm of exec that has no meaning yet; none is left. Safe: the machine stops where the hardware goes on. -/
  | notModelled (mnemonic : String)
  deriving DecidableEq, Repr

/-- The `result` output of a cycle (R81): `Ok` or one fault. -/
inductive CycleResult where
  | ok
  | fault (f : Fault)
  deriving DecidableEq, Repr

/-- The cycle driver's mode (R23): running, or waiting for a key that goes to register `t`. -/
inductive Mode where
  | running
  | awaitingKey (t : RegId)
  deriving DecidableEq, Repr

/-- Memory: (address, byte) pairs, addresses strictly rising, no pair equal to what an unlisted address reads as
(`Memory.wf`, Machine/Memory.lean; R40). -/
abbrev Memory := List Host.Cell

/-- The framebuffer: 32 rows of 64 pixels, row `y` at index `y`, column `x` its bit `x` (R20). -/
abbrev Framebuffer := Vector (BitVec 64) 32

/-- The state of one machine instance (R10, R22), and after it the inputs and outputs of a cycle (R26, R81), which are the
model's own fields. -/
structure State where
  /-- Memory, 4096 bytes (R40). -/
  mem : Memory
  /-- The byte registers `V[0]`..`V[15]`; `V[15]` is the flag register (R11, R12). -/
  v : Vector Byte 16
  /-- The index register `I` (R13). -/
  index : Word
  /-- The program counter (R14). -/
  pc : Word
  /-- The call stack's slots (R15). -/
  stack : Vector Word 16
  /-- The stack pointer, 0 to 16 (R16). -/
  sp : Fin 17
  /-- The delay timer (R17). -/
  delay : Byte
  /-- The sound timer (R18). -/
  sound : Byte
  /-- The timer accumulator (R19). -/
  acc : Time
  /-- The framebuffer (R20). -/
  fb : Framebuffer
  /-- The display's dirty flag (R21). -/
  dirty : Bool
  /-- The cycle driver's mode (R23). -/
  mode : Mode
  /-- The 16 key states, written by the host's key events only (R22, R226). -/
  keys : Vector Bool 16
  /-- MODEL's own: the elapsed time of the present cycle, an input (R81; log 4). -/
  elapsed : Time
  /-- MODEL's own: the random draw of the present cycle, an input (R81, R132; log 3). -/
  rnd : Byte
  /-- MODEL's own: the `result` output of the latest cycle (R81, R219; log 6). -/
  result : CycleResult
  /-- MODEL's own: the `tone` output of the latest cycle (R81, R224; log 6). -/
  tone : Bool
  /-- MODEL's own: inputs of coming cycles that are settled, oldest first; with none the next inputs are free (log 5). -/
  feed : List CycleInput
  /-- MODEL's own: how many cycles have begun, which numbers the free inputs (log 5). -/
  cycles : Nat
  deriving DecidableEq, Repr

/-- The state after reset (R28, R250). Memory lists nothing: an unlisted address reads as its reset content (R41, R42). The
last six fields are the model's own (logs 3 to 6). -/
def State.reset : State where
  mem := []
  v := Vector.replicate 16 0
  index := 0
  pc := 0x200
  stack := Vector.replicate 16 0
  sp := 0
  delay := 0
  sound := 0
  acc := Time.zero
  fb := Vector.replicate 32 0
  dirty := false
  mode := .running
  keys := Vector.replicate 16 false
  elapsed := Time.zero
  rnd := 0
  result := .ok
  tone := false
  feed := []
  cycles := 0

end Sys2Proof.Machine
end

