-- ==== Sys2Proof/Machine/Ops.lean ====
section
/-! DEFINITION. The named operations over registers, memory, stack, faults, timers and inputs that the meanings share. -/

namespace Sys2Proof.Machine

/-! ### Registers (R7, R11, R12) -/

/-- `V[x]` (R7). -/
def State.reg (s : State) (x : RegId) : Byte := s.v[x.toNat]

/-- `V[x] <- b` (R7). -/
def State.setReg (s : State) (x : RegId) (b : Byte) : State := { s with v := s.v.set x.toNat b }

/-- Write the flag register `VF` (R12). -/
def State.setFlag (s : State) (b : Byte) : State := s.setReg flagReg b

/-- Write the registers `V[0]`, `V[1]`, ... from a list, the first from number `k` on (R156). -/
def State.setRegs (s : State) : Nat → List Byte → State
  | _, [] => s
  | k, b :: bs => State.setRegs (s.setReg (BitVec.ofNat 4 k) b) (k + 1) bs

/-- `V[0]` to `V[x]` in rising order (R155). -/
def State.regsUpTo (s : State) (x : RegId) : List Byte :=
  (List.range (x.toNat + 1)).map fun k => s.reg (BitVec.ofNat 4 k)

/-- `I <- w` (R7, R13). -/
def State.setIndex (s : State) (w : Word) : State := { s with index := w }

/-- `pc <- w` (R7, R14). -/
def State.setPc (s : State) (w : Word) : State := { s with pc := w }

/-- `pc <- pc + 2`, the advance past an instruction (R85). -/
def State.advance (s : State) : State := s.setPc (s.pc + 2)

/-- The advance of a skip: `pc + 4` if the condition holds, else `pc + 2` (R85). -/
def State.skipIf (s : State) (c : Bool) : State := s.setPc (if c then s.pc + 4 else s.pc + 2)

/-! ### Faults (R86, R219) -/

/-- TAKING A FAULT. The machine saves nothing, changes no mode and transfers control nowhere; the only effect is the
`result` output of the cycle (R219). `pc` still addresses the failing instruction (R86). There is no return from a fault
(R220). -/
def State.raise (s : State) (f : Fault) : State := { s with result := .fault f }

/-- The numeric code of a fault (R210, R217; the spec's own numbers, D13). -/
def Fault.code : Fault → Nat
  | .stackOverflow => 1
  | .stackUnderflow => 2
  | .unknownOpcode _ => 3
  | .addressOutOfRange _ => 4
  | .keyIndexOutOfRange _ => 6

/-! ### Bounds-checked memory access (R43 to R46) -/

/-- The fault of an access to the `n` bytes from `a` up, if there is one: its highest address exceeds 0xFFF. Sums are
unbounded (R46); no bytes need no check (R172). Reported is the lowest address out of range (R45). -/
def accessFault (a n : Nat) : Option Fault :=
  if 1 ≤ n ∧ a + n - 1 > 0xFFF then some (.addressOutOfRange (max a 0x1000)) else none

/-- Read `n` bytes from `a` up; with `n` = 1 this is `MemRead` (R43, R45). -/
def State.readBlock (s : State) (a n : Nat) : Except Fault (List Byte) :=
  match accessFault a n with
  | some f => .error f
  | none => .ok (s.mem.readBytes a n)

/-- Write bytes from `a` up, all of them or, where the highest address is out of range, none; with one byte this is
`MemWrite` (R44, R45). -/
def State.writeBlock (s : State) (a : Nat) (bytes : List Byte) : Except Fault State :=
  match accessFault a bytes.length with
  | some f => .error f
  | none => .ok { s with mem := s.mem.writeBytes a bytes }

/-! ### Fetch and decode (R82, R83) -/

/-- `Fetch(a)`: two bytes, high byte first; fails for `a + 1 > 0xFFF` (R48, R82). -/
def State.fetchWord (s : State) : Except Fault Word :=
  match accessFault s.pc.toNat 2 with
  | some f => .error f
  | none => .ok (wordOfBytes (s.mem.read s.pc.toNat) (s.mem.read (s.pc.toNat + 1)))

/-- Fetch and decode the instruction at `pc`: the fetch's fault, or the decoder's (R81, R218). -/
def State.fetchInstr (s : State) : Except Fault Instr :=
  match s.fetchWord with
  | .error f => .error f
  | .ok w =>
    match decodeWord w with
    | .ok i => .ok i
    | .error _ => .error (.unknownOpcode w)

/-! ### The call stack (R15, R16) -/

/-- Push: write `stack[sp]`, then increment `sp`; nothing with a full stack (R16). -/
def State.push (s : State) (w : Word) : Option State :=
  if h : s.sp.val < 16 then
    some { s with stack := s.stack.set s.sp.val w, sp := ⟨s.sp.val + 1, Nat.succ_lt_succ h⟩ }
  else none

/-- Pop: decrement `sp`, then read `stack[sp]`, which keeps its value; nothing with an empty stack (R16). -/
def State.pop (s : State) : Option (Word × State) :=
  if h : 0 < s.sp.val then
    some (s.stack[s.sp.val - 1]'(by omega), { s with sp := ⟨s.sp.val - 1, by omega⟩ })
  else none

/-! ### Timers (R223) -/

/-- The tick fires: the accumulated time with this cycle's has reached the period (R223). -/
def State.tickFires (s : State) : Bool := tickPeriod.le (s.acc.add s.elapsed)

/-- A timer after a tick: one less when the tick fires and it is above 0 (R223). -/
def timerAfter (fires : Bool) (timer : Byte) : Byte := if fires && timer != 0 then timer - 1 else timer

/-- `TimerTick`: the accumulator takes the cycle's elapsed time; when it reaches the period each timer above 0 is
decremented once, a tone is emitted for a sound timer above 0, and the accumulator returns to 0 (R223, R224). -/
def State.timerTick (s : State) : State :=
  { s with
    delay := timerAfter s.tickFires s.delay
    tone := s.tickFires && s.sound != 0
    sound := timerAfter s.tickFires s.sound
    acc := if s.tickFires then Time.zero else s.acc.add s.elapsed }

/-! ### Keys and the inputs of a cycle (R22, R26, R89, R226) -/

/-- What one key event does to the key states; a key number above 15 changes nothing (R226). -/
def KeyEvent.apply (keys : Vector Bool 16) : KeyEvent → Vector Bool 16
  | .down k => if h : k < 16 then keys.set k true else keys
  | .up k => if h : k < 16 then keys.set k false else keys

/-- The inputs of the coming cycle: the settled ones if there are any, else free values (R26, R81; log 5). -/
def State.nextInput (s : State) : CycleInput :=
  match s.feed with
  | inp :: _ => inp
  | [] => Config.freeInput s.cycles

/-- Take the inputs of the coming cycle: the key events make the snapshot (R89), the elapsed time and the draw are put
where the cycle reads them, and the outputs are cleared (R81). Nothing else changes. -/
def State.deliver (s : State) : State :=
  { s with
    keys := s.nextInput.keyEvents.foldl KeyEvent.apply s.keys
    elapsed := s.nextInput.elapsed
    rnd := s.nextInput.rnd
    result := .ok
    tone := false
    feed := s.feed.tail
    cycles := s.cycles + 1 }

/-- `HighestPressed(keys)`: the scan runs over all 16 keys, a later pressed key overwriting an earlier one (R198). -/
def highestPressed (keys : Vector Bool 16) : Option RegId :=
  (List.range 16).foldl (fun k i => if keys.getD i false then some (BitVec.ofNat 4 i) else k) none

/-- `PollKey(t)`, in place of an instruction while the mode is `awaitingKey t` (R193). -/
def State.pollKey (s : State) (t : RegId) : State :=
  match highestPressed s.keys with
  | none => s
  | some k => { (s.setReg t (k.setWidth 8)).advance with mode := .running }

end Sys2Proof.Machine
end

