-- ==== Sys2Proof/Machine/Operands.lean ====
section
/-! DEFINITION. The operand forms: immediates as they are (R63), jump targets (R102, R104), the one data addressing mode
(R150), a key number in a register (R197), and the decimal digits of a byte (R154). -/

namespace Sys2Proof.Machine

/-- `NNN` as a 16-bit value, widened with zeros (R63). -/
def target (nnn : Addr12) : Word := nnn.setWidth 16

/-- `NNN + V[0]`, exact in 16 bits (R104). -/
def State.targetPlusV0 (s : State) (nnn : Addr12) : Word := target nnn + (s.reg 0).setWidth 16

/-- The base of a data access: the value of `I`, an unbounded natural (R46, R150). -/
def State.dataAddr (s : State) : Nat := s.index.toNat

/-- `I + V[x]` modulo 65536 (R152). -/
def State.indexPlus (s : State) (x : RegId) : Word := s.index + (s.reg x).setWidth 16

/-- `V[x] * 5`, the glyph's address for a digit and exact for every byte (R153). -/
def State.glyphAddr (s : State) (x : RegId) : Word := (s.reg x).setWidth 16 * 5

/-- The key a register names: its value must be 0..15 (R197). -/
def State.keyOf (s : State) (x : RegId) : Except Fault Bool :=
  if h : (s.reg x).toNat < 16 then .ok s.keys[(s.reg x).toNat] else .error (.keyIndexOutOfRange (s.reg x))

/-- The hundreds, tens and units digits of a byte, in this order (R154). -/
def decimalDigits (b : Byte) : List Byte := [b / 100, b / 10 % 10, b % 10]

end Sys2Proof.Machine
end

