-- ==== Sys2Proof/Machine/Flags.lean ====
section
/-! DEFINITION. The values the flag register receives (R12, R127 to R131), each 0 or 1. -/

namespace Sys2Proof.Machine

/-- A condition as a flag byte. -/
def flagOf (c : Bool) : Byte := if c then 1 else 0

/-- Carry: 1 exactly when the true sum exceeds 255 (R127). -/
def carryFlag (a b : Byte) : Byte := flagOf (a.toNat + b.toNat > 255)

/-- No borrow: 1 exactly when the minuend is at least the subtrahend (R128, R130). -/
def noBorrowFlag (a b : Byte) : Byte := flagOf (a.toNat ≥ b.toNat)

/-- The bit a right shift shifts out: bit 0 (R129). -/
def shiftedOutRight (a : Byte) : Byte := a &&& 1

/-- The bit a left shift shifts out: bit 7 (R131). -/
def shiftedOutLeft (a : Byte) : Byte := a >>> 7

/-- A flag-defining instruction (R120): first the flag, from the registers as they are, then the result into `V[x]`, from
the registers as the flag's write left them, then the advance. -/
def State.flagThenResult (s : State) (x : RegId) (flag result : State → Byte) : State :=
  let s1 := s.setFlag (flag s)
  (s1.setReg x (result s1)).advance

end Sys2Proof.Machine
end

