-- ==== Sys2Proof/Machine/Alu.lean ====
section
/-! DEFINITION. Register and ALU instructions (42_alu.md). None can fault; each ends with `pc <- pc + 2`. -/

namespace Sys2Proof.Machine

/-- `6XNN` LDI (R121): `V[X] <- NN`. -/
def execLdi (x : RegId) (nn : Byte) (s : State) : Host.Outcome State Fault Refusal :=
  .next (s.setReg x nn).advance

/-- `7XNN` ADDI (R122): `V[X] <- (V[X] + NN) mod 256`, no flag. -/
def execAddi (x : RegId) (nn : Byte) (s : State) : Host.Outcome State Fault Refusal :=
  .next (s.setReg x (s.reg x + nn)).advance

/-- `8XY0` MOV (R123): `V[X] <- V[Y]`. -/
def execMov (x y : RegId) (s : State) : Host.Outcome State Fault Refusal :=
  .next (s.setReg x (s.reg y)).advance

/-- `8XY1` OR (R124): no flag. -/
def execOr (x y : RegId) (s : State) : Host.Outcome State Fault Refusal :=
  .next (s.setReg x (s.reg x ||| s.reg y)).advance

/-- `8XY2` AND (R125): no flag. -/
def execAnd (x y : RegId) (s : State) : Host.Outcome State Fault Refusal :=
  .next (s.setReg x (s.reg x &&& s.reg y)).advance

/-- `8XY3` XOR (R126): no flag. -/
def execXor (x y : RegId) (s : State) : Host.Outcome State Fault Refusal :=
  .next (s.setReg x (s.reg x ^^^ s.reg y)).advance

/-- `8XY4` ADD (R127): the carry to `VF`, then the sum modulo 256 to `V[X]`. -/
def execAdd (x y : RegId) (s : State) : Host.Outcome State Fault Refusal :=
  .next (s.flagThenResult x (fun s => carryFlag (s.reg x) (s.reg y)) fun s => s.reg x + s.reg y)

/-- `8XY5` SUB (R128): no borrow to `VF`, then `(V[X] - V[Y]) mod 256` to `V[X]`. -/
def execSub (x y : RegId) (s : State) : Host.Outcome State Fault Refusal :=
  .next (s.flagThenResult x (fun s => noBorrowFlag (s.reg x) (s.reg y)) fun s => s.reg x - s.reg y)

/-- `8XY6` SHR (R129): bit 0 to `VF`, then `V[X]` shifted right by one; `Y` is ignored (R69). -/
def execShr (x _y : RegId) (s : State) : Host.Outcome State Fault Refusal :=
  .next (s.flagThenResult x (fun s => shiftedOutRight (s.reg x)) fun s => s.reg x >>> 1)

/-- `8XY7` SUBN (R130): no borrow to `VF`, then `(V[Y] - V[X]) mod 256` to `V[X]`. -/
def execSubn (x y : RegId) (s : State) : Host.Outcome State Fault Refusal :=
  .next (s.flagThenResult x (fun s => noBorrowFlag (s.reg y) (s.reg x)) fun s => s.reg y - s.reg x)

/-- `8XYE` SHL (R131): bit 7 to `VF`, then `V[X]` shifted left by one modulo 256; `Y` is ignored (R69). -/
def execShl (x _y : RegId) (s : State) : Host.Outcome State Fault Refusal :=
  .next (s.flagThenResult x (fun s => shiftedOutLeft (s.reg x)) fun s => s.reg x <<< 1)

/-- `CXNN` RND (R132): `V[X] <- rnd & NN` with the draw of this cycle. -/
def execRnd (x : RegId) (nn : Byte) (s : State) : Host.Outcome State Fault Refusal :=
  .next (s.setReg x (s.rnd &&& nn)).advance

end Sys2Proof.Machine
end

