-- ==== Sys2Proof/Machine/Control.lean ====
section
/-! DEFINITION. Control transfer (41_control_flow.md): return, jumps, call and conditional skips. -/

namespace Sys2Proof.Machine

/-- `00EE` RET (R101): pop into `pc`; an empty stack is StackUnderflow. -/
def execRet (s : State) : Host.Outcome State Fault Refusal :=
  match s.pop with
  | none => .next (s.raise .stackUnderflow)
  | some (w, t) => .next (t.setPc w)

/-- `1NNN` JP (R102): `pc <- NNN`. -/
def execJp (nnn : Addr12) (s : State) : Host.Outcome State Fault Refusal :=
  .next (s.setPc (target nnn))

/-- `2NNN` CALL (R103): push `pc + 2`, then `pc <- NNN`; a full stack is StackOverflow. -/
def execCall (nnn : Addr12) (s : State) : Host.Outcome State Fault Refusal :=
  match s.push (s.pc + 2) with
  | none => .next (s.raise .stackOverflow)
  | some t => .next (t.setPc (target nnn))

/-- `BNNN` JPV0 (R104): `pc <- NNN + V[0]`, not reduced to 12 bits. -/
def execJpv0 (nnn : Addr12) (s : State) : Host.Outcome State Fault Refusal :=
  .next (s.setPc (s.targetPlusV0 nnn))

/-- `3XNN` SEI (R105): skip if `V[X] = NN`. -/
def execSei (x : RegId) (nn : Byte) (s : State) : Host.Outcome State Fault Refusal :=
  .next (s.skipIf (s.reg x == nn))

/-- `4XNN` SNEI (R106): skip if `V[X] != NN`. -/
def execSnei (x : RegId) (nn : Byte) (s : State) : Host.Outcome State Fault Refusal :=
  .next (s.skipIf (s.reg x != nn))

/-- `5XY0` SE (R107): skip if `V[X] = V[Y]`. -/
def execSe (x y : RegId) (s : State) : Host.Outcome State Fault Refusal :=
  .next (s.skipIf (s.reg x == s.reg y))

/-- `9XY0` SNE (R108): skip if `V[X] != V[Y]`. -/
def execSne (x y : RegId) (s : State) : Host.Outcome State Fault Refusal :=
  .next (s.skipIf (s.reg x != s.reg y))

end Sys2Proof.Machine
end

