-- ==== Sys2Proof/Machine/Display.lean ====
section
/-! DEFINITION. The display engine (44_display.md): clear, and the XOR sprite draw with wrap and collision. -/

namespace Sys2Proof.Machine

/-- The pixel at column `x`, row `y`; coordinates are taken modulo 64 and 32 (R20, R173). -/
def Framebuffer.pixel (fb : Framebuffer) (x y : Nat) : Bool :=
  (fb[y % 32]'(Nat.mod_lt _ (by decide))).getLsbD (x % 64)

/-- XOR-toggle the pixel at column `x`, row `y`, taken modulo 64 and 32 (R172, R173). -/
def Framebuffer.toggle (fb : Framebuffer) (x y : Nat) : Framebuffer :=
  fb.set (y % 32) ((fb[y % 32]'(Nat.mod_lt _ (by decide))) ^^^ BitVec.twoPow 64 (x % 64)) (Nat.mod_lt _ (by decide))

/-- Column `c` of a sprite row: bit `7 - c`, the most significant bit first (R174). -/
def spriteBit (row : Byte) (c : Nat) : Bool := row.getLsbD (7 - c)

/-- One bit of a sprite at `(x, y)`: a 1 bit toggles the pixel and reports a collision if it was on; a 0 bit does
nothing (R172, R175). -/
def drawBit (x y : Nat) (bit : Bool) (d : Framebuffer × Bool) : Framebuffer × Bool :=
  if bit then (d.1.toggle x y, d.2 || d.1.pixel x y) else d

/-- One sprite row, columns 0 to 7 (R172). -/
def drawRow (x y : Nat) (row : Byte) (d : Framebuffer × Bool) : Framebuffer × Bool :=
  (List.range 8).foldl (fun d c => drawBit (x + c) y (spriteBit row c) d) d

/-- The rows of a sprite, the first at row `y` (R172). -/
def drawRows (x : Nat) : Nat → List Byte → Framebuffer × Bool → Framebuffer × Bool
  | _, [], d => d
  | y, row :: rows, d => drawRows x (y + 1) rows (drawRow x y row d)

/-- `draw(x, y, height, sprite_rows)`: the framebuffer after it and the collision, which starts at 0 (R172). -/
def drawSprite (fb : Framebuffer) (x y : Nat) (rows : List Byte) : Framebuffer × Bool :=
  drawRows x y rows (fb, false)

/-- `00E0` CLS (R171): every pixel off, `dirty` set. -/
def execCls (s : State) : Host.Outcome State Fault Refusal :=
  .next { s with fb := Vector.replicate 32 0, dirty := true }.advance

/-- `DXYN` DRW (R172): coordinates and sprite rows are read first, then the draw, then the flag and `dirty`. -/
def execDrw (x y : RegId) (n : Nibble) (s : State) : Host.Outcome State Fault Refusal :=
  match s.readBlock s.dataAddr n.toNat with
  | .error f => .next (s.raise f)
  | .ok rows =>
    let d := drawSprite s.fb (s.reg x).toNat (s.reg y).toNat rows
    .next ({ s with fb := d.1, dirty := true }.setFlag (flagOf d.2)).advance

end Sys2Proof.Machine
end

