-- ==== Sys2Proof/Machine/IndexMemory.lean ====
section
/-! DEFINITION. Index register and memory instructions (43_index_memory.md). `I` is never changed by an access (R150). -/

namespace Sys2Proof.Machine

/-- `ANNN` LDX (R151): `I <- NNN`. -/
def execLdx (nnn : Addr12) (s : State) : Host.Outcome State Fault Refusal :=
  .next (s.setIndex (target nnn)).advance

/-- `FX1E` ADDX (R152): `I <- (I + V[X]) mod 65536`, no flag, no fault. -/
def execAddx (x : RegId) (s : State) : Host.Outcome State Fault Refusal :=
  .next (s.setIndex (s.indexPlus x)).advance

/-- `FX29` FONT (R153): `I <- V[X] * 5`. -/
def execFont (x : RegId) (s : State) : Host.Outcome State Fault Refusal :=
  .next (s.setIndex (s.glyphAddr x)).advance

/-- `FX33` BCD (R154): the decimal digits of `V[X]` at `I`, `I + 1`, `I + 2`. -/
def execBcd (x : RegId) (s : State) : Host.Outcome State Fault Refusal :=
  match s.writeBlock s.dataAddr (decimalDigits (s.reg x)) with
  | .error f => .next (s.raise f)
  | .ok t => .next t.advance

/-- `FX55` STM (R155): `V[0]`..`V[X]` at `I`..`I + X`. -/
def execStm (x : RegId) (s : State) : Host.Outcome State Fault Refusal :=
  match s.writeBlock s.dataAddr (s.regsUpTo x) with
  | .error f => .next (s.raise f)
  | .ok t => .next t.advance

/-- `FX65` LDM (R156): `V[0]`..`V[X]` from `I`..`I + X`. -/
def execLdm (x : RegId) (s : State) : Host.Outcome State Fault Refusal :=
  match s.readBlock s.dataAddr (x.toNat + 1) with
  | .error f => .next (s.raise f)
  | .ok bytes => .next (s.setRegs 0 bytes).advance

end Sys2Proof.Machine
end

