-- ==== Sys2Proof/Machine/KeypadTimers.lean ====
section
/-! DEFINITION. Keypad and timer instructions (45_keypad_timers.md). The key states are this cycle's snapshot (R89, R190). -/

namespace Sys2Proof.Machine

/-- `EX9E` SKP (R191): skip if the key `V[X]` names is pressed; a value above 15 is KeyIndexOutOfRange (R197). -/
def execSkp (x : RegId) (s : State) : Host.Outcome State Fault Refusal :=
  match s.keyOf x with
  | .error f => .next (s.raise f)
  | .ok pressed => .next (s.skipIf pressed)

/-- `EXA1` SKNP (R192): skip if the key `V[X]` names is not pressed; a value above 15 is KeyIndexOutOfRange (R197). -/
def execSknp (x : RegId) (s : State) : Host.Outcome State Fault Refusal :=
  match s.keyOf x with
  | .error f => .next (s.raise f)
  | .ok pressed => .next (s.skipIf (!pressed))

/-- `FX0A` WKEY (R193): the highest pressed key to `V[X]`; with none pressed, wait in mode `awaitingKey X`, `pc` staying. -/
def execWkey (x : RegId) (s : State) : Host.Outcome State Fault Refusal :=
  .next (match highestPressed s.keys with
    | none => { s with mode := .awaitingKey x }
    | some k => (s.setReg x (k.setWidth 8)).advance)

/-- `FX07` GDT (R194): `V[X] <- delay`. -/
def execGdt (x : RegId) (s : State) : Host.Outcome State Fault Refusal :=
  .next (s.setReg x s.delay).advance

/-- `FX15` SDT (R195): `delay <- V[X]`; the accumulator is not touched. -/
def execSdt (x : RegId) (s : State) : Host.Outcome State Fault Refusal :=
  .next { s with delay := s.reg x }.advance

/-- `FX18` SST (R196): `sound <- V[X]`; the accumulator is not touched. -/
def execSst (x : RegId) (s : State) : Host.Outcome State Fault Refusal :=
  .next { s with sound := s.reg x }.advance

end Sys2Proof.Machine
end

