-- ==== Sys2Proof/Machine/Cycle.lean ====
section
/-! DEFINITION. The cycle (R80, R81): one instruction or one key poll, then one timer tick. -/

namespace Sys2Proof.Machine

/-- The end of a cycle: the timer tick runs after whatever the instruction phase gave (R81, R87). -/
def thenTick : Host.Outcome State Fault Refusal → Host.Outcome State Fault Refusal
  | .next s => .next s.timerTick
  | .fault f => .fault f
  | .refused r => .refused r

/-- One cycle on the inputs the state holds (R81). In `awaitingKey t` nothing is fetched: the key poll runs (R193). A fault
of the fetch or the decode is taken like any other (R86), and the tick runs after a fault too (R87). -/
def cycle (s : State) : Host.Outcome State Fault Refusal :=
  match s.mode with
  | .awaitingKey t => .next (s.pollKey t).timerTick
  | .running =>
    match s.fetchInstr with
    | .error f => .next (s.raise f).timerTick
    | .ok i => thenTick (exec i s)

/-- Where an instruction is placed to be the next one fetched: `pc`, or the entry point where nothing can be fetched at
`pc` (R82, R252). -/
def State.fetchSpot (s : State) : Word := if s.pc.toNat + 1 > 0xFFF then 0x200 else s.pc

/-- The state with an instruction word placed where the next cycle fetches, in mode `running`, the only one that
fetches. -/
def State.placeWord (s : State) (w : Word) : State :=
  { s with mem := s.mem.writeBytes s.fetchSpot.toNat (bytesOfWord w), pc := s.fetchSpot, mode := .running }

end Sys2Proof.Machine
end

