-- ==== Sys2Proof/Machine/HostOps.lean ====
section
/-! DEFINITION. The host's operations between cycles (R226 to R230, R250). The operation `cycle` is Machine/Cycle.lean's. -/

namespace Sys2Proof.Machine

/-- `reset()` (R250): every item of state to its reset value. The settled inputs and the counter of the free inputs are the
model's own and stay: a reset does not make the world repeat itself (log 5). -/
def State.hostReset (s : State) : State := { State.reset with feed := s.feed, cycles := s.cycles }

/-- `load(image)` (R229): at most 3584 bytes from 0x200 up, the rest of the image dropped; nothing else changes. -/
def State.load (image : List Byte) (s : State) : State :=
  { s with mem := s.mem.writeBytes loadBase (image.take maxImage) }

/-- The shell's load from storage (R215), whose failing is the one use of `LoadError`: without an image no byte is
copied. Answers whether it failed. -/
def State.loadFromStorage (image : Option (List Byte)) (s : State) : Bool × State :=
  match image with
  | some bytes => (false, s.load bytes)
  | none => (true, s)

/-- The code of `LoadError` (R210; the spec's own number, D13). No cycle reports it (R215). -/
def loadErrorCode : Nat := 5

/-- `key_down(k)` (R226). -/
def State.keyDown (k : Nat) (s : State) : State := { s with keys := KeyEvent.apply s.keys (.down k) }

/-- `key_up(k)` (R226). -/
def State.keyUp (k : Nat) (s : State) : State := { s with keys := KeyEvent.apply s.keys (.up k) }

/-- `clear_dirty()` (R227). -/
def State.clearDirty (s : State) : State := { s with dirty := false }

/-- `read_dirty()` (R227). -/
def State.readDirty (s : State) : Bool := s.dirty

/-- `read_mode()` (R230). -/
def State.readMode (s : State) : Mode := s.mode

/-- `read_framebuffer()` (R227): all 2048 pixels, flattened row by row, index `y * 64 + x` (D25). -/
def State.readFramebuffer (s : State) : List Bool :=
  (List.range (fbHeight * fbWidth)).map fun k => s.fb.pixel (k % fbWidth) (k / fbWidth)

end Sys2Proof.Machine
end

