-- ==== Sys2Proof/Machine/Step.lean ====
section
/-! DEFINITION. One step of the machine: the next cycle's inputs are taken, then the cycle runs (R80, R81). -/

namespace Sys2Proof.Machine

/-- One invocation of the cycle driver (R80). -/
def step (s : State) : Host.Outcome State Fault Refusal := cycle s.deliver

/-- `s` with the instruction of the table word `w` placed where `step` fetches next; bits at and above `nbits` are 0. -/
def State.withFetchWord (s : State) (nbits w : Nat) : State := s.placeWord (BitVec.ofNat 16 (w % 2 ^ nbits))

end Sys2Proof.Machine
end

