-- ==== Sys2Proof/Safety.lean ====
section
/-! DEFINITION. The terms in which claims about the machine are made: its items of state and when two states agree on one,
what each instruction may write (R27), when it faults (R210 to R216), the invariant of a run, a safe run, and the suggested
end of a run (R90). -/

namespace Sys2Proof.Machine

/-! ### Items of state and frames -/

/-- One item of state: a byte of memory, a register, a slot, a pixel, a key, or a whole field (R10, R22, R81). -/
inductive Item where
  | byte (a : Nat)
  | reg (x : RegId)
  | index
  | pc
  | slot (k : Fin 16)
  | sp
  | delay
  | sound
  | acc
  | pixel (x : Fin 64) (y : Fin 32)
  | dirty
  | mode
  | key (k : Fin 16)
  | elapsed
  | rnd
  | result
  | tone
  | feed
  | cycles
  deriving DecidableEq, Repr

/-- Two states agree on an item; memory is compared by what a read of the address gives. -/
def Item.same (s t : State) : Item → Prop
  | .byte a => t.mem.read a = s.mem.read a
  | .reg x => t.reg x = s.reg x
  | .index => t.index = s.index
  | .pc => t.pc = s.pc
  | .slot k => t.stack[k] = s.stack[k]
  | .sp => t.sp = s.sp
  | .delay => t.delay = s.delay
  | .sound => t.sound = s.sound
  | .acc => t.acc = s.acc
  | .pixel x y => t.fb.pixel x y = s.fb.pixel x y
  | .dirty => t.dirty = s.dirty
  | .mode => t.mode = s.mode
  | .key k => t.keys[k] = s.keys[k]
  | .elapsed => t.elapsed = s.elapsed
  | .rnd => t.rnd = s.rnd
  | .result => t.result = s.result
  | .tone => t.tone = s.tone
  | .feed => t.feed = s.feed
  | .cycles => t.cycles = s.cycles

/-- The items a cycle may change whatever instruction it runs: those of the timer tick (R223), the key input (R89), and the
cycle's own inputs and outputs (R81). -/
def Item.ofEveryCycle : Item → Bool
  | .delay | .sound | .acc | .key _ | .elapsed | .rnd | .result | .tone | .feed | .cycles => true
  | _ => false

/-- The registers an instruction writes (R27, columns V and VF). -/
def writesReg : Instr → RegId → Prop
  | .ldi x _, r | .addi x _, r | .mov x _, r | .or x _, r | .and x _, r | .xor x _, r => r = x
  | .add x _, r | .sub x _, r | .shr x _, r | .subn x _, r | .shl x _, r => r = x ∨ r = flagReg
  | .rnd x _, r | .gdt x, r | .wkey x, r => r = x
  | .drw _ _ _, r => r = flagReg
  | .ldm x, r => r.toNat ≤ x.toNat
  | _, _ => False

/-- The bytes of memory an instruction stores to, at the address its meaning computes (R27, column mem). -/
def writesByte (s : State) : Instr → Nat → Prop
  | .bcd _, a => s.dataAddr ≤ a ∧ a ≤ s.dataAddr + 2
  | .stm x, a => s.dataAddr ≤ a ∧ a ≤ s.dataAddr + x.toNat
  | _, _ => False

/-- Instructions that can raise a fault (R210). -/
def canFault : Instr → Bool
  | .ret | .call _ | .drw _ _ _ | .bcd _ | .stm _ | .ldm _ | .skp _ | .sknp _ => true
  | _ => false

/-- The items an instruction may write (R27); every instruction may write `pc`, and one that can fault the `result`. -/
def mayWrite (s : State) (i : Instr) : Item → Prop
  | .byte a => writesByte s i a
  | .reg x => writesReg i x
  | .index => i.mnemonic ∈ [Mnemonic.ldx, .addx, .font]
  | .pc => True
  | .slot k => i.mnemonic = .call ∧ k.val = s.sp.val
  | .sp => i.mnemonic ∈ [Mnemonic.call, .ret]
  | .delay => i.mnemonic = .sdt
  | .sound => i.mnemonic = .sst
  | .pixel _ _ => i.mnemonic ∈ [Mnemonic.cls, .drw]
  | .dirty => i.mnemonic ∈ [Mnemonic.cls, .drw]
  | .mode => i.mnemonic = .wkey
  | .result => canFault i = true
  | .acc | .key _ | .elapsed | .rnd | .tone | .feed | .cycles => False

/-! ### Faults -/

/-- The fault an instruction raises in a state, if any: the complete list of R211 to R216. -/
def faultIn (s : State) : Instr → Option Fault
  | .call _ => if s.sp.val = 16 then some .stackOverflow else none
  | .ret => if s.sp.val = 0 then some .stackUnderflow else none
  | .drw _ _ n =>
    if 1 ≤ n.toNat ∧ s.dataAddr + n.toNat - 1 > 0xFFF then some (.addressOutOfRange (max s.dataAddr 0x1000)) else none
  | .bcd _ => if s.dataAddr + 2 > 0xFFF then some (.addressOutOfRange (max s.dataAddr 0x1000)) else none
  | .stm x | .ldm x =>
    if s.dataAddr + x.toNat > 0xFFF then some (.addressOutOfRange (max s.dataAddr 0x1000)) else none
  | .skp x | .sknp x => if (s.reg x).toNat > 15 then some (.keyIndexOutOfRange (s.reg x)) else none
  | _ => none

/-- The result of a cycle whose instruction phase raised this fault or none (R81). -/
def resultOf : Option Fault → CycleResult
  | none => .ok
  | some f => .fault f

/-! ### The invariant of a run -/

/-- What holds at reset and is kept by every step. -/
structure State.Inv (s : State) : Prop where
  /-- Memory keeps its canonical form: no byte outside 0x000..0xFFF is held (R40). -/
  memCanonical : s.mem.wf = true
  /-- The program counter never passes 0x10FE (R14). -/
  pcBound : s.pc.toNat ≤ 0x10FE
  /-- A pushed address is at most 0x1000 (R101). -/
  slotBound : ∀ k : Fin 16, s.stack[k].toNat ≤ 0x1000
  /-- The accumulator stays below the tick period (R223). -/
  accBelowPeriod : tickPeriod.le s.acc = false
  /-- While the driver waits for a key, `pc` addresses the FX0A that began the wait (R23). -/
  waitsAtWkey : ∀ t, s.mode = .awaitingKey t → s.fetchInstr = .ok (.wkey t)

/-! ### Sprites -/

/-- The sprite of `n` rows from `I` on, drawn at `(V[x], V[y])`, has a 1 bit at the pixel in column `px`, row `py`: the pixel
of column `c` of row `r` is `((V[x] + c) mod 64, (V[y] + r) mod 32)` (R173), its bit the bit `7 - c` of the byte at `I + r`
(R174). -/
def spriteCovers (s : State) (x y : RegId) (n : Nibble) (px : Fin 64) (py : Fin 32) : Bool :=
  (List.range n.toNat).any fun r => (List.range 8).any fun c =>
    (s.mem.read (s.dataAddr + r)).getLsbD (7 - c) &&
      (((s.reg x).toNat + c) % 64 == px.val && ((s.reg y).toNat + r) % 32 == py.val)

/-! ### Runs -/

/-- A cycle ended without a fault. -/
def State.cleanResult (s : State) : Bool := s.result == .ok

/-- `k` cycles from `s`, none of which reports a fault. -/
def runsSafely : Nat → State → Prop
  | 0, _ => True
  | k + 1, s =>
    match step s with
    | .next t => t.cleanResult = true ∧ runsSafely k t
    | .fault _ => False
    | .refused _ => False

/-- The end-of-run predicate the spec suggests for its open parameter `END_OF_RUN` (R90, D19): the mode is running and the
instruction at `pc` jumps to itself. A claim may take any other predicate (log 8). -/
def State.selfJump (s : State) : Prop :=
  s.mode = .running ∧ ∃ nnn : Addr12, s.fetchInstr = .ok (.jp nnn) ∧ target nnn = s.pc

/-- The timer tick over the elapsed times of several cycles, counting the tones emitted (R223, R224). -/
def tickRun : List Time → State → Nat × State
  | [], s => (0, s)
  | e :: es, s =>
    let t := State.timerTick { s with elapsed := e }
    let r := tickRun es t
    ((if t.tone then 1 else 0) + r.1, r.2)

/-- The sum of a list of times, as a rational number. -/
def totalTime (es : List Time) : ℚ := (es.map Time.toRat).sum

end Sys2Proof.Machine
end

