-- ==== Sys2Proof/Certificates/Slice0/Obligations.lean ====
section
/-! DEFINITION. The statements for the provers, each from the numbered rules of the spec that its docstring names. D<n> is a
decision of 92_eei_decisions.md; log <n> is notes/assumptions/<n>.md. -/

open Sys2Proof Sys2Proof.Machine

/-! ### Encoding -/

/-- Decoding the word of any instruction gives that instruction, with every operand at every value (R62, R66, R73). -/
def Obligations.DecodeOfEncodeIsTheInstruction : Prop :=
  ∀ i : Instr, decodeWord (encode i) = .ok i

/-- Where a word decodes, encoding the instruction gives the word back: no bit of a word is dropped (R66, R73). -/
def Obligations.EncodeOfDecodeIsTheWord : Prop :=
  ∀ (w : Word) (i : Instr), decodeWord w = .ok i → encode i = w

/-- A word decodes to an instruction of a row exactly when `w & mask = match` for that row (R64, R66); so no word matches
two rows. -/
def Obligations.OpcodeMapRowsDecideTheInstruction : Prop :=
  ∀ (m : Mnemonic) (w : Word), m.covers w = true ↔ ∃ i : Instr, decodeWord w = .ok i ∧ i.mnemonic = m

/-- A word that matches no row of the opcode map, and only such a word, is an unknown opcode, reported with the word
(R67, R73). -/
def Obligations.UnmatchedWordsAreUnknownOpcodes : Prop :=
  ∀ w : Word, decodeWord w = .error (.unknownOpcode w) ↔ ∀ m : Mnemonic, m.covers w = false

/-- Words of the vectors of 95_test_vectors.md section 2.1 decode as listed there. -/
def Obligations.ListedWordsDecodeAsListed : Prop :=
  decodeWord 0x00E0 = .ok .cls ∧ decodeWord 0x00EE = .ok .ret ∧ decodeWord 0x1000 = .ok (.jp 0) ∧
  decodeWord 0x5120 = .ok (.se 1 2) ∧ decodeWord 0x8127 = .ok (.subn 1 2) ∧ decodeWord 0x812E = .ok (.shl 1 2) ∧
  decodeWord 0xBFFF = .ok (.jpv0 0xFFF) ∧ decodeWord 0xCFFF = .ok (.rnd 15 0xFF) ∧ decodeWord 0xDFFF = .ok (.drw 15 15 15) ∧
  decodeWord 0xE1A1 = .ok (.sknp 1) ∧ decodeWord 0xF10A = .ok (.wkey 1) ∧ decodeWord 0xF165 = .ok (.ldm 1) ∧
  decodeWord 0x0000 = .error (.unknownOpcode 0x0000) ∧ decodeWord 0x5121 = .error (.unknownOpcode 0x5121) ∧
  decodeWord 0x8128 = .error (.unknownOpcode 0x8128) ∧ decodeWord 0xF1FF = .error (.unknownOpcode 0xF1FF)

/-- An instruction is two bytes, high byte first, and the bytes after them are left over (R48, R60). -/
def Obligations.DecodeTakesTwoBytesHighFirst : Prop :=
  ∀ (i : Instr) (rest : List Byte),
    (∃ hi lo : Byte, encodeBytes i = [hi, lo] ∧ hi.toNat * 256 + lo.toNat = (encode i).toNat) ∧
    decode (encodeBytes i ++ rest) = .ok (i, rest)

/-! ### Reset, the cycle and its invariant -/

/-- Every item of state has the value of the reset table (R28). The spec marks `pc` (D1), `acc` (D27), `dirty` and the keys
(D17) as its own decisions; the glyph bytes are its parameter `GLYPH_TABLE` (D2, log 1), named here and not spelled out. -/
def Obligations.ResetLeavesTheListedValues : Prop :=
  (∀ x : RegId, State.reset.reg x = 0) ∧ State.reset.index = 0 ∧ State.reset.pc = 0x200 ∧
  (∀ k : Fin 16, State.reset.stack[k] = 0) ∧ State.reset.sp = 0 ∧ State.reset.delay = 0 ∧ State.reset.sound = 0 ∧
  State.reset.acc.toRat = 0 ∧
  (∀ a, a < 80 → glyphTable[a]? = some (State.reset.mem.read a)) ∧ (∀ a, 0x50 ≤ a → State.reset.mem.read a = 0) ∧
  (∀ (x : Fin 64) (y : Fin 32), State.reset.fb.pixel x y = false) ∧ State.reset.dirty = false ∧
  State.reset.mode = .running ∧ ∀ k : Fin 16, State.reset.keys[k] = false

/-- The host's reset puts every item of the machine's state to its reset value, whatever the state was (R250). The inputs
and outputs of a cycle, `elapsed`, `rnd`, `result` and `tone`, are no state of the machine but the model's own fields: that
they too go to their reset values, and which values these are, is the model's choice (log 4, log 3, log 6), as it is that
the model's two fields that number and settle the coming inputs, `cycles` and `feed`, stay (log 5). -/
def Obligations.HostResetRestoresEveryItem : Prop :=
  ∀ (s : State) (it : Item), it ≠ .feed → it ≠ .cycles → it.same State.reset s.hostReset

/-- The invariant of a run holds at reset. -/
def Obligations.ResetSatisfiesTheInvariant : Prop :=
  State.reset.Inv

/-- Every step keeps the invariant of a run: memory stays canonical (R40), `pc` stays at most 0x10FE (R14), stack slots at
most 0x1000 (R101), the accumulator below the period (R223), and a waiting machine's `pc` addresses the FX0A with the latched
target (R23). -/
def Obligations.EveryStepKeepsTheInvariant : Prop :=
  ∀ s t : State, s.Inv → step s = .next t → t.Inv

/-- Every instruction answers a next state in every state: a fault is taken, not a stop (R86, R88; log 7). -/
def Obligations.EveryInstructionAnswersANextState : Prop :=
  ∀ (i : Instr) (s : State), ∃ t, exec i s = .next t

/-- Every cycle answers a next state: the driver has no terminal state (R90) and a faulted machine is not halted (R88). It
ends with one timer tick on the elapsed time of that cycle, the accumulator untouched until then, whatever the cycle did
(R81, R223); that the tick also runs after a fault is the spec's decision (R87, D5). -/
def Obligations.EveryCycleEndsWithOneTick : Prop :=
  ∀ s : State, ∃ u : State, step s = .next u.timerTick ∧ u.acc = s.acc ∧ u.elapsed = s.nextInput.elapsed

/-- In mode running, where the two bytes at `pc` decode to an instruction, a step is: the inputs of the cycle are taken,
the instruction executes, the timer tick follows (R81). Taking the inputs changes neither memory, registers, `pc` nor mode. -/
def Obligations.StepRunsTheDecodedInstruction : Prop :=
  ∀ (s : State) (i : Instr), s.mode = .running → s.pc.toNat + 1 ≤ 0xFFF →
    decodeWord (wordOfBytes (s.mem.read s.pc.toNat) (s.mem.read (s.pc.toNat + 1))) = .ok i →
    (∃ t, exec i s.deliver = .next t ∧ step s = .next t.timerTick) ∧
    s.deliver = { s with
      keys := s.nextInput.keyEvents.foldl KeyEvent.apply s.keys
      elapsed := s.nextInput.elapsed, rnd := s.nextInput.rnd, result := .ok, tone := false
      feed := s.feed.tail, cycles := s.cycles + 1 }

/-- The fetch: the byte at `pc` times 256 plus the byte at `pc + 1`, or AddressOutOfRange with `max(pc, 0x1000)` when
`pc + 1` exceeds 0xFFF (R82). The address reported is the spec's decision (D13). -/
def Obligations.FetchReadsTwoBytesOrFaults : Prop :=
  ∀ s : State,
    (s.pc.toNat + 1 > 0xFFF → s.fetchWord = .error (.addressOutOfRange (max s.pc.toNat 0x1000))) ∧
    (s.pc.toNat + 1 ≤ 0xFFF → ∃ w : Word, s.fetchWord = .ok w ∧
      w.toNat = (s.mem.read s.pc.toNat).toNat * 256 + (s.mem.read (s.pc.toNat + 1)).toNat)

/-- A cycle whose fetch or decode fails reports that fault, runs the timer tick and changes nothing else of the machine: `pc`
is left unadvanced (R82, R213). That the machine stays (D4) and the tick runs (D5) are the spec's decisions. -/
def Obligations.FetchAndDecodeFaultsAreReported : Prop :=
  ∀ s : State, s.mode = .running →
    (s.pc.toNat + 1 > 0xFFF →
      step s = .next (s.deliver.raise (.addressOutOfRange (max s.pc.toNat 0x1000))).timerTick) ∧
    (∀ w : Word, s.pc.toNat + 1 ≤ 0xFFF → w = wordOfBytes (s.mem.read s.pc.toNat) (s.mem.read (s.pc.toNat + 1)) →
      (∀ m : Mnemonic, m.covers w = false) → step s = .next (s.deliver.raise (.unknownOpcode w)).timerTick)

/-- An instruction that raises a fault has changed nothing: the state is the one before it but for the reported result
(R86, R219). -/
def Obligations.FaultingInstructionChangesNothing : Prop :=
  ∀ (i : Instr) (s t : State) (f : Fault), s.result = .ok → exec i s = .next t → t.result = .fault f →
    (∀ it : Item, it ≠ .result → it.same s t)

/-- After a cycle that reports a fault the machine differs from before at most in `acc`, `delay` and `sound`, which took the
cycle's tick (R87, D5), and in the cycle's own inputs and outputs. -/
def Obligations.FaultingCycleOnlyTicks : Prop :=
  ∀ (s t : State) (f : Fault), step s = .next t → t.result = .fault f →
    t = (s.deliver.raise f).timerTick ∧ ∀ it : Item, it.ofEveryCycle = false → it.same s t

/-- A fault is persistent: the cycle after one that reports a fault reports the same fault, whatever its inputs (R88). -/
def Obligations.FaultRepeatsOnTheNextCycle : Prop :=
  ∀ (s t u : State) (f : Fault), step s = .next t → t.result = .fault f → step t = .next u →
    u.result = .fault f ∧ ∀ it : Item, it.ofEveryCycle = false → it.same s u

/-- An instruction raises exactly the fault of the tables of R210 and R214, and completes with `Ok` where they list none.
KeyIndexOutOfRange is the spec's decision (D8). -/
def Obligations.InstructionsFaultExactlyAsListed : Prop :=
  ∀ (i : Instr) (s t : State), s.result = .ok → exec i s = .next t → t.result = resultOf (faultIn s i)

/-- An instruction changes only the items the access table names for it (R27); every other register, slot, pixel, byte of
memory, timer, key and mode is as before. That a row's silence means unchanged is the spec's decision (D29). -/
def Obligations.InstructionsWriteOnlyWhatTheTableNames : Prop :=
  ∀ (i : Instr) (s t : State), exec i s = .next t → ∀ it : Item, ¬ mayWrite s i it → it.same s t

/-- The draw of a cycle is read by RND alone (R24, R81), the key snapshot by SKP, SKNP and WKEY alone (R22): any other
instruction does the same whatever they are. That a table row names all it reads is the spec's decision (D29). -/
def Obligations.InputsAreReadByTheirInstructionsOnly : Prop :=
  ∀ (i : Instr) (s t : State), exec i s = .next t →
    (i.mnemonic ≠ .rnd → ∀ b : Byte, exec i { s with rnd := b } = .next { t with rnd := b }) ∧
    (i.mnemonic ∉ [Mnemonic.skp, .sknp, .wkey] →
      ∀ keys : Vector Bool 16, exec i { s with keys := keys } = .next { t with keys := keys })

/-! ### Control transfer -/

/-- CALL with a full stack raises StackOverflow, RET with an empty one StackUnderflow, and the stack, `sp`, `pc` and
everything else of the machine are unchanged; since nothing changed, the same instruction raises the same fault again
(R211, R212). -/
def Obligations.StackFaultsChangeNothing : Prop :=
  (∀ (nnn : Addr12) (s : State), s.sp.val = 16 → ∃ t, exec (.call nnn) s = .next t ∧ t.result = .fault .stackOverflow ∧
    (∀ it : Item, it ≠ .result → it.same s t) ∧ exec (.call nnn) t = .next t) ∧
  (∀ s : State, s.sp.val = 0 → ∃ t, exec .ret s = .next t ∧ t.result = .fault .stackUnderflow ∧
    (∀ it : Item, it ≠ .result → it.same s t) ∧ exec .ret t = .next t)

/-- RET with a return address on the stack pops the most recent one into `pc`, exactly as it was stored; no slot changes and
no fault is raised (R101). Which slot that is, is the spec's decision (D26). -/
def Obligations.ReturnPopsThePc : Prop :=
  ∀ (s : State) (h : 0 < s.sp.val), ∃ t, exec .ret s = .next t ∧ t.sp.val = s.sp.val - 1 ∧
    t.pc = s.stack[s.sp.val - 1]'(by omega) ∧ t.stack = s.stack ∧ t.result = s.result

/-- JP is the word 0x1000 + NNN; it sets `pc` to `NNN`, with no flag and no fault (R102). -/
def Obligations.JumpSetsThePc : Prop :=
  ∀ (nnn : Addr12) (s : State), (encode (.jp nnn)).toNat = 0x1000 + nnn.toNat ∧
    ∃ t, exec (.jp nnn) s = .next t ∧ t.pc.toNat = nnn.toNat ∧ t.reg flagReg = s.reg flagReg ∧ t.result = s.result

/-- CALL with room on the stack pushes `pc + 2`, the other slots keeping their values, and sets `pc` to `NNN`, with no fault
(R103). Which slot is written is the spec's decision (D26). -/
def Obligations.CallPushesTheReturnAddress : Prop :=
  ∀ (nnn : Addr12) (s : State) (h : s.sp.val < 16), ∃ t, exec (.call nnn) s = .next t ∧
    t.stack[s.sp.val] = s.pc + 2 ∧ (∀ k : Fin 16, k.val ≠ s.sp.val → t.stack[k] = s.stack[k]) ∧
    t.sp.val = s.sp.val + 1 ∧ t.pc.toNat = nnn.toNat ∧ t.result = s.result

/-- JPV0 sets `pc` to `NNN + V[0]`, not reduced to 12 bits (the spec marks this as derived), with no fault at the jump
(R104). -/
def Obligations.JumpPlusV0IsNotMasked : Prop :=
  ∀ (nnn : Addr12) (s : State), ∃ t, exec (.jpv0 nnn) s = .next t ∧ t.pc.toNat = nnn.toNat + (s.reg 0).toNat ∧
    t.result = s.result

/-- SEI, the word 0x3000 + X * 256 + NN, skips the next two bytes if `V[X]` equals `NN`; SNEI, the word
0x4000 + X * 256 + NN, if it differs; else `pc` moves to the next instruction. No flag, no fault (R105, R106). -/
def Obligations.ImmediateSkips : Prop :=
  ∀ (x : RegId) (nn : Byte) (s : State),
    (encode (.sei x nn)).toNat = 0x3000 + x.toNat * 256 + nn.toNat ∧
    (encode (.snei x nn)).toNat = 0x4000 + x.toNat * 256 + nn.toNat ∧
    (∃ t, exec (.sei x nn) s = .next t ∧ t.pc = (if s.reg x = nn then s.pc + 4 else s.pc + 2) ∧
      t.reg flagReg = s.reg flagReg ∧ t.result = s.result) ∧
    (∃ t, exec (.snei x nn) s = .next t ∧ t.pc = (if s.reg x = nn then s.pc + 2 else s.pc + 4) ∧
      t.reg flagReg = s.reg flagReg ∧ t.result = s.result)

/-- SE skips if `V[X]` equals `V[Y]`, SNE if they differ, with the same register twice included (R107, R108). -/
def Obligations.RegisterSkips : Prop :=
  ∀ (x y : RegId) (s : State),
    (∃ t, exec (.se x y) s = .next t ∧ t.pc = (if s.reg x = s.reg y then s.pc + 4 else s.pc + 2)) ∧
    (∃ t, exec (.sne x y) s = .next t ∧ t.pc = (if s.reg x = s.reg y then s.pc + 2 else s.pc + 4))

/-- A return that finds the stack as a call left it resumes at the address after the call, with the call's stack depth
(R101, R103, example S4). -/
def Obligations.ReturnUndoesCall : Prop :=
  ∀ (nnn : Addr12) (s t u : State), s.sp.val < 16 → exec (.call nnn) s = .next t → u.stack = t.stack → u.sp = t.sp →
    ∃ w, exec .ret u = .next w ∧ w.pc = s.pc + 2 ∧ w.sp = s.sp

/-- A jump to itself changes nothing but what every cycle changes, and the machine is at the same jump again (R90, R102). -/
def Obligations.SelfJumpStaysPut : Prop :=
  ∀ s t : State, s.selfJump → step s = .next t → t.selfJump ∧ ∀ it : Item, it.ofEveryCycle = false → it.same s t

/-! ### Registers and arithmetic -/

/-- LDI, the word 0x6000 + X * 256 + NN, writes `NN` to `V[X]`; MOV, the word 0x8000 + X * 256 + Y * 16, copies `V[Y]` to
`V[X]`; `pc` advances by 2. No flag but where X is 15 itself, and no fault (R121, R123). -/
def Obligations.LoadImmediateAndMove : Prop :=
  ∀ (x y : RegId) (nn : Byte) (s : State),
    (encode (.ldi x nn)).toNat = 0x6000 + x.toNat * 256 + nn.toNat ∧
    (encode (.mov x y)).toNat = 0x8000 + x.toNat * 256 + y.toNat * 16 ∧
    (∃ t, exec (.ldi x nn) s = .next t ∧ t.reg x = nn ∧ t.pc = s.pc + 2 ∧
      (x ≠ flagReg → t.reg flagReg = s.reg flagReg) ∧ t.result = s.result) ∧
    (∃ t, exec (.mov x y) s = .next t ∧ t.reg x = s.reg y ∧ t.pc = s.pc + 2 ∧
      (x ≠ flagReg → t.reg flagReg = s.reg flagReg) ∧ t.result = s.result)

/-- ADDI adds `NN` modulo 256 and defines no flag: every other register, `VF` among them, keeps its value (R122; D29). -/
def Obligations.AddImmediateWrapsWithoutFlag : Prop :=
  ∀ (x : RegId) (nn : Byte) (s : State), ∃ t, exec (.addi x nn) s = .next t ∧
    (t.reg x).toNat = ((s.reg x).toNat + nn.toNat) % 256 ∧ (∀ r, r ≠ x → t.reg r = s.reg r) ∧ t.pc = s.pc + 2

/-- OR, AND and XOR combine `V[X]` and `V[Y]` bit by bit and define no flag (R124, R125, R126; D29). -/
def Obligations.BitwiseOperations : Prop :=
  ∀ (x y : RegId) (s : State),
    (∃ t, exec (.or x y) s = .next t ∧
      (∀ k, (t.reg x).getLsbD k = ((s.reg x).getLsbD k || (s.reg y).getLsbD k)) ∧
      (∀ r, r ≠ x → t.reg r = s.reg r) ∧ t.pc = s.pc + 2) ∧
    (∃ t, exec (.and x y) s = .next t ∧
      (∀ k, (t.reg x).getLsbD k = ((s.reg x).getLsbD k && (s.reg y).getLsbD k)) ∧
      (∀ r, r ≠ x → t.reg r = s.reg r) ∧ t.pc = s.pc + 2) ∧
    (∃ t, exec (.xor x y) s = .next t ∧
      (∀ k, (t.reg x).getLsbD k = ((s.reg x).getLsbD k ^^ (s.reg y).getLsbD k)) ∧
      (∀ r, r ≠ x → t.reg r = s.reg r) ∧ t.pc = s.pc + 2)

/-- ADD writes the carry to `VF` and then `(V[X] + V[Y]) mod 256` to `V[X]`, from the registers as the flag's write left
them (R127). That order, seen when X or Y is 15, is the spec's decision (R120, D9). -/
def Obligations.AddWritesCarryThenSum : Prop :=
  ∀ (x y : RegId) (s : State), ∃ t, exec (.add x y) s = .next t ∧ t.pc = s.pc + 2 ∧
    ∀ (flag : Byte) (now : RegId → Byte),
      flag = (if (s.reg x).toNat + (s.reg y).toNat > 255 then 1 else 0) →
      (∀ r, now r = if r = flagReg then flag else s.reg r) →
      (t.reg x).toNat = ((now x).toNat + (now y).toNat) % 256 ∧ ∀ r, r ≠ x → t.reg r = now r

/-- SUB and SUBN write 1 to `VF` exactly when no borrow is needed, equality included, and then the difference modulo 256
to `V[X]`, from the registers as the flag's write left them (R128, R130; order D9). -/
def Obligations.SubtractWritesNoBorrowThenDifference : Prop :=
  ∀ (x y : RegId) (s : State),
    (∃ t, exec (.sub x y) s = .next t ∧ t.pc = s.pc + 2 ∧
      ∀ (flag : Byte) (now : RegId → Byte),
        flag = (if (s.reg x).toNat ≥ (s.reg y).toNat then 1 else 0) →
        (∀ r, now r = if r = flagReg then flag else s.reg r) →
        ((t.reg x).toNat : Int) = ((now x).toNat - (now y).toNat : Int) % 256 ∧ ∀ r, r ≠ x → t.reg r = now r) ∧
    (∃ t, exec (.subn x y) s = .next t ∧ t.pc = s.pc + 2 ∧
      ∀ (flag : Byte) (now : RegId → Byte),
        flag = (if (s.reg y).toNat ≥ (s.reg x).toNat then 1 else 0) →
        (∀ r, now r = if r = flagReg then flag else s.reg r) →
        ((t.reg x).toNat : Int) = ((now y).toNat - (now x).toNat : Int) % 256 ∧ ∀ r, r ≠ x → t.reg r = now r)

/-- SHR and SHL write the bit shifted out to `VF` and then `V[X]` shifted by one, from the registers as the flag's write
left them; the second operand is not used (R69, R129, R131; order D9). -/
def Obligations.ShiftsWriteTheBitShiftedOut : Prop :=
  ∀ (x y : RegId) (s : State),
    (∃ t, exec (.shr x y) s = .next t ∧ t.pc = s.pc + 2 ∧
      ∀ (flag : Byte) (now : RegId → Byte), flag.toNat = (s.reg x).toNat % 2 →
        (∀ r, now r = if r = flagReg then flag else s.reg r) →
        (t.reg x).toNat = (now x).toNat / 2 ∧ ∀ r, r ≠ x → t.reg r = now r) ∧
    (∃ t, exec (.shl x y) s = .next t ∧ t.pc = s.pc + 2 ∧
      ∀ (flag : Byte) (now : RegId → Byte), flag.toNat = (s.reg x).toNat / 128 →
        (∀ r, now r = if r = flagReg then flag else s.reg r) →
        (t.reg x).toNat = (now x).toNat * 2 % 256 ∧ ∀ r, r ≠ x → t.reg r = now r) ∧
    (∀ y' : RegId, exec (.shr x y') s = exec (.shr x y) s ∧ exec (.shl x y') s = exec (.shl x y) s)

/-- RND writes the cycle's draw under the mask `NN`, for every value of the draw: a 0 bit of `NN` is 0 in the result, which
is at most `NN` (R132; the draw is the free value of log 3). -/
def Obligations.RandomByteIsMasked : Prop :=
  ∀ (x : RegId) (nn : Byte) (s : State), ∃ t, exec (.rnd x nn) s = .next t ∧ t.reg x = s.rnd &&& nn ∧
    (∀ k, nn.getLsbD k = false → (t.reg x).getLsbD k = false) ∧ (t.reg x).toNat ≤ nn.toNat ∧ t.pc = s.pc + 2

/-! ### Index register and memory -/

/-- LDX, the word 0xA000 + NNN, writes `NNN` to `I`, whose upper four bits become 0; `pc` advances by 2. No flag, no fault
(R151). -/
def Obligations.IndexIsLoaded : Prop :=
  ∀ (nnn : Addr12) (s : State), (encode (.ldx nnn)).toNat = 0xA000 + nnn.toNat ∧
    ∃ t, exec (.ldx nnn) s = .next t ∧ t.index.toNat = nnn.toNat ∧ t.pc = s.pc + 2 ∧
      t.reg flagReg = s.reg flagReg ∧ t.result = s.result

/-- ADDX adds `V[X]` to `I` modulo 65536, with no flag and no fault (R152); FONT writes `V[X] * 5` to `I`, exact for every
byte (R153). The wrap, the flag left unchanged and the digit not masked are the spec's decisions (D10, D29, D28). -/
def Obligations.IndexArithmetic : Prop :=
  ∀ (x : RegId) (s : State),
    (∃ t, exec (.addx x) s = .next t ∧ t.index.toNat = (s.index.toNat + (s.reg x).toNat) % 65536 ∧
      (∀ r, t.reg r = s.reg r) ∧ t.result = s.result ∧ t.pc = s.pc + 2) ∧
    (∃ t, exec (.font x) s = .next t ∧ t.index.toNat = (s.reg x).toNat * 5 ∧ (∀ r, t.reg r = s.reg r) ∧
      t.result = s.result ∧ t.pc = s.pc + 2)

/-- BCD stores the three decimal digits of `V[X]`, hundreds first, and no other byte; `I` and `V[X]` are unchanged. If
`I + 2` exceeds 0xFFF it raises AddressOutOfRange and writes nothing (R154). The address reported is the spec's decision (D13). -/
def Obligations.BcdStoresThreeDigits : Prop :=
  ∀ (x : RegId) (s : State),
    (s.dataAddr + 2 > 0xFFF → exec (.bcd x) s = .next (s.raise (.addressOutOfRange (max s.dataAddr 0x1000)))) ∧
    (s.dataAddr + 2 ≤ 0xFFF → ∃ t, exec (.bcd x) s = .next t ∧
      (t.mem.read s.dataAddr).toNat = (s.reg x).toNat / 100 ∧
      (t.mem.read (s.dataAddr + 1)).toNat = (s.reg x).toNat / 10 % 10 ∧
      (t.mem.read (s.dataAddr + 2)).toNat = (s.reg x).toNat % 10 ∧
      (∀ a, ¬(s.dataAddr ≤ a ∧ a ≤ s.dataAddr + 2) → t.mem.read a = s.mem.read a) ∧
      t.index = s.index ∧ t.reg x = s.reg x ∧ t.pc = s.pc + 2)

/-- STM stores `V[0]`..`V[X]` at `I`..`I + X` and no other byte. If `I + X` exceeds 0xFFF it raises AddressOutOfRange and
writes nothing (R155; the address reported: D13). -/
def Obligations.StoreRegistersAtIndex : Prop :=
  ∀ (x : RegId) (s : State),
    (s.dataAddr + x.toNat > 0xFFF → exec (.stm x) s = .next (s.raise (.addressOutOfRange (max s.dataAddr 0x1000)))) ∧
    (s.dataAddr + x.toNat ≤ 0xFFF → ∃ t, exec (.stm x) s = .next t ∧
      (∀ k : RegId, k.toNat ≤ x.toNat → t.mem.read (s.dataAddr + k.toNat) = s.reg k) ∧
      (∀ a, ¬(s.dataAddr ≤ a ∧ a ≤ s.dataAddr + x.toNat) → t.mem.read a = s.mem.read a) ∧ t.pc = s.pc + 2)

/-- LDM loads `V[0]`..`V[X]` from `I`..`I + X`; the registers above `X` are unchanged. If `I + X` exceeds 0xFFF it raises
AddressOutOfRange and loads nothing (R156; the address reported: D13). -/
def Obligations.LoadRegistersFromIndex : Prop :=
  ∀ (x : RegId) (s : State),
    (s.dataAddr + x.toNat > 0xFFF → exec (.ldm x) s = .next (s.raise (.addressOutOfRange (max s.dataAddr 0x1000)))) ∧
    (s.dataAddr + x.toNat ≤ 0xFFF → ∃ t, exec (.ldm x) s = .next t ∧
      (∀ k : RegId, k.toNat ≤ x.toNat → t.reg k = s.mem.read (s.dataAddr + k.toNat)) ∧
      (∀ k : RegId, x.toNat < k.toNat → t.reg k = s.reg k) ∧ t.pc = s.pc + 2)

/-- Loading after storing gives back the registers stored, from any state with that memory and that `I`: STM leaves `I`
where LDM finds its bytes (R155, R156; D24). -/
def Obligations.LoadAfterStoreRestoresRegisters : Prop :=
  ∀ (x : RegId) (s t u : State), s.dataAddr + x.toNat ≤ 0xFFF → exec (.stm x) s = .next t → u.mem = t.mem →
    u.index = t.index → ∃ w, exec (.ldm x) u = .next w ∧ ∀ k : RegId, k.toNat ≤ x.toNat → w.reg k = s.reg k

/-- A store is seen by the fetch: two registers stored at `pc` are the next instruction word (R54, R256). -/
def Obligations.StoreIsSeenByTheFetch : Prop :=
  ∀ (x k : RegId) (s t u : State), s.dataAddr + x.toNat ≤ 0xFFF → exec (.stm x) s = .next t → k.toNat + 1 ≤ x.toNat →
    u.mem = t.mem → u.pc.toNat = s.dataAddr + k.toNat → u.fetchWord = .ok (s.reg k ++ s.reg (k + 1))

/-- One byte is read or written with a bounds check: above 0xFFF the access raises AddressOutOfRange with the address; else
the read gives the byte and changes nothing, and the write changes that byte and nothing else (R43, R44). -/
def Obligations.ByteAccessIsBoundsChecked : Prop :=
  ∀ (s : State) (a : Nat) (b : Byte),
    (a > 0xFFF → s.readBlock a 1 = .error (.addressOutOfRange a) ∧ s.writeBlock a [b] = .error (.addressOutOfRange a)) ∧
    (a ≤ 0xFFF → s.readBlock a 1 = .ok [s.mem.read a] ∧ ∃ t, s.writeBlock a [b] = .ok t ∧ t.mem.read a = b ∧
      ∀ it : Item, it ≠ .byte a → it.same s t)

/-! ### Display -/

/-- CLS, the word 0x00E0, turns every pixel off and sets `dirty`; `pc` advances by 2. No flag, no fault (R171). -/
def Obligations.ClearTurnsEveryPixelOff : Prop :=
  encode .cls = 0x00E0 ∧
  ∀ s : State, ∃ t, exec .cls s = .next t ∧ (∀ (px : Fin 64) (py : Fin 32), t.fb.pixel px py = false) ∧
    t.dirty = true ∧ t.pc = s.pc + 2 ∧ t.reg flagReg = s.reg flagReg ∧ t.result = s.result

/-- DRW toggles exactly the pixels the sprite covers, sets `VF` to 1 if one of them was on and to 0 otherwise, and sets
`dirty`, for every height 0 to 15 and every pair of registers; with a row above 0xFFF it raises AddressOutOfRange and changes
nothing (R172 to R176, R214). Operand binding, wrap and the address reported are the spec's decisions (D23, D3, D13). -/
def Obligations.DrawTogglesTheSpritePixels : Prop :=
  ∀ (x y : RegId) (n : Nibble) (s : State),
    (1 ≤ n.toNat ∧ s.dataAddr + n.toNat - 1 > 0xFFF →
      exec (.drw x y n) s = .next (s.raise (.addressOutOfRange (max s.dataAddr 0x1000)))) ∧
    ((n.toNat = 0 ∨ s.dataAddr + n.toNat - 1 ≤ 0xFFF) → ∃ t, exec (.drw x y n) s = .next t ∧
      (∀ (px : Fin 64) (py : Fin 32), t.fb.pixel px py = (s.fb.pixel px py ^^ spriteCovers s x y n px py)) ∧
      ((∃ (px : Fin 64) (py : Fin 32), spriteCovers s x y n px py = true ∧ s.fb.pixel px py = true) →
        t.reg flagReg = 1) ∧
      ((¬∃ (px : Fin 64) (py : Fin 32), spriteCovers s x y n px py = true ∧ s.fb.pixel px py = true) →
        t.reg flagReg = 0) ∧
      t.dirty = true ∧ t.index = s.index ∧ t.pc = s.pc + 2)

/-- Drawing the same sprite twice at the same place restores every pixel (R172, R173). The second draw collides exactly when
the sprite covers a pixel that was off before the first: this condition is the model's reading (DEDUCED, log 10) of R172's
pseudocode and of R175; R172's own remark says `VF` = 1 the second time whenever the sprite has any 1 bit. -/
def Obligations.DrawingTwiceRestoresTheDisplay : Prop :=
  ∀ (x y : RegId) (n : Nibble) (s t u : State), (n.toNat = 0 ∨ s.dataAddr + n.toNat - 1 ≤ 0xFFF) →
    exec (.drw x y n) s = .next t → t.reg x = s.reg x → t.reg y = s.reg y → exec (.drw x y n) t = .next u →
    (∀ (px : Fin 64) (py : Fin 32), u.fb.pixel px py = s.fb.pixel px py) ∧
    (u.reg flagReg = 1 ↔ ∃ (px : Fin 64) (py : Fin 32), spriteCovers s x y n px py = true ∧ s.fb.pixel px py = false)

/-! ### Keypad and timers -/

/-- HighestPressed is the largest pressed key, or none if no key is pressed (R198). -/
def Obligations.HighestPressedIsTheLargestKey : Prop :=
  ∀ keys : Vector Bool 16,
    (highestPressed keys = none ↔ ∀ j : Fin 16, keys[j] = false) ∧
    (∀ k : RegId, highestPressed keys = some k ↔
      keys[k.toNat] = true ∧ ∀ j : Fin 16, k.toNat < j.val → keys[j] = false)

/-- WKEY with no key pressed enters `awaitingKey X` and leaves `pc`; with one pressed the highest goes to `V[X]`, `pc`
advances and the mode stays (R193). -/
def Obligations.WaitForKeyResolvesOrWaits : Prop :=
  ∀ (x : RegId) (s : State),
    (highestPressed s.keys = none → ∃ t, exec (.wkey x) s = .next t ∧ t.mode = .awaitingKey x ∧ t.pc = s.pc ∧
      ∀ r, t.reg r = s.reg r) ∧
    (∀ k, highestPressed s.keys = some k → ∃ t, exec (.wkey x) s = .next t ∧ (t.reg x).toNat = k.toNat ∧
      t.pc = s.pc + 2 ∧ t.mode = s.mode)

/-- A cycle that begins in `awaitingKey t` fetches nothing: with no key pressed only the tick runs; with one pressed the
highest goes to `V[t]`, `pc` advances and the mode is running again (R193). The latched mode is the spec's decision (D18). -/
def Obligations.WaitingCyclePollsTheKeys : Prop :=
  ∀ (s : State) (w : RegId), s.mode = .awaitingKey w →
    (highestPressed s.deliver.keys = none → step s = .next s.deliver.timerTick) ∧
    (∀ k, highestPressed s.deliver.keys = some k → ∃ t, step s = .next t ∧ (t.reg w).toNat = k.toNat ∧
      (∀ r, r ≠ w → t.reg r = s.reg r) ∧ t.pc = s.pc + 2 ∧ t.mode = .running ∧ t.mem = s.mem)

/-- SKP skips if the key `V[X]` names is pressed, SKNP if it is not; a value above 15 raises KeyIndexOutOfRange
(R191, R192, R197). The fault is the spec's decision (D8). -/
def Obligations.KeySkips : Prop :=
  ∀ (x : RegId) (s : State),
    (∀ h : (s.reg x).toNat < 16,
      (∃ t, exec (.skp x) s = .next t ∧ t.pc = (if s.keys[(s.reg x).toNat] = true then s.pc + 4 else s.pc + 2)) ∧
      (∃ t, exec (.sknp x) s = .next t ∧ t.pc = (if s.keys[(s.reg x).toNat] = true then s.pc + 2 else s.pc + 4))) ∧
    ((s.reg x).toNat > 15 →
      exec (.skp x) s = .next (s.raise (.keyIndexOutOfRange (s.reg x))) ∧
      exec (.sknp x) s = .next (s.raise (.keyIndexOutOfRange (s.reg x))))

/-- GDT, the word 0xF007 + X * 256, copies `delay` to `V[X]` and leaves `delay`; SDT, 0xF015 + X * 256, copies `V[X]` to
`delay` and SST, 0xF018 + X * 256, to `sound`, without touching the accumulator; `pc` advances by 2. No flag but where GDT
names register 15, and no fault (R194, R195, R196). -/
def Obligations.TimerMoves : Prop :=
  ∀ (x : RegId) (s : State),
    ((encode (.gdt x)).toNat = 0xF007 + x.toNat * 256 ∧ (encode (.sdt x)).toNat = 0xF015 + x.toNat * 256 ∧
      (encode (.sst x)).toNat = 0xF018 + x.toNat * 256) ∧
    (∃ t, exec (.gdt x) s = .next t ∧ t.reg x = s.delay ∧ t.delay = s.delay ∧ t.pc = s.pc + 2 ∧
      (x ≠ flagReg → t.reg flagReg = s.reg flagReg) ∧ t.result = s.result) ∧
    (∃ t, exec (.sdt x) s = .next t ∧ t.delay = s.reg x ∧ t.acc = s.acc ∧ t.pc = s.pc + 2 ∧
      t.reg flagReg = s.reg flagReg ∧ t.result = s.result) ∧
    (∃ t, exec (.sst x) s = .next t ∧ t.sound = s.reg x ∧ t.acc = s.acc ∧ t.pc = s.pc + 2 ∧
      t.reg flagReg = s.reg flagReg ∧ t.result = s.result)

/-- The timer tick: when the accumulated time reaches 1/60 s it fires once, each timer above 0 loses one, a tone is emitted
exactly if `sound` was above 0, and the accumulator returns to 0 however large the excess; else the time is accumulated and
nothing else changes (R223). -/
def Obligations.TimerTickFiresAtTheSixtieth : Prop :=
  ∀ s : State,
    (1 / 60 ≤ s.acc.toRat + s.elapsed.toRat →
      s.timerTick.acc.toRat = 0 ∧ s.timerTick.delay.toNat = s.delay.toNat - 1 ∧
      s.timerTick.sound.toNat = s.sound.toNat - 1 ∧ (s.timerTick.tone = true ↔ 0 < s.sound.toNat)) ∧
    (s.acc.toRat + s.elapsed.toRat < 1 / 60 →
      s.timerTick.acc.toRat = s.acc.toRat + s.elapsed.toRat ∧ s.timerTick.delay = s.delay ∧
      s.timerTick.sound = s.sound ∧ s.timerTick.tone = false) ∧
    (∀ it : Item, it ∉ [Item.acc, .delay, .sound, .tone] → it.same s s.timerTick)

/-- Over any sequence of ticks, as many tones are emitted as `sound` was decremented: a value left alone yields exactly that
many tones by the time it reaches 0 (R224). -/
def Obligations.TonesCountTheSoundTimer : Prop :=
  ∀ (es : List Time) (s : State), (tickRun es s).1 + (tickRun es s).2.sound.toNat = s.sound.toNat

/-- Ticks whose times sum to less than 1/60 s decrement `delay` at most once, however many they are (R225, example S7). -/
def Obligations.ShortWindowDecrementsAtMostOnce : Prop :=
  ∀ (es : List Time) (s : State), totalTime es < 1 / 60 →
    s.delay.toNat ≤ (tickRun es s).2.delay.toNat + 1 ∧ (tickRun es s).2.delay.toNat ≤ s.delay.toNat

/-! ### The host's operations -/

/-- The host's load copies at most 3584 bytes of the image to 0x200 and up, drops the rest, and changes nothing else
(R229). That it touches nothing else is the spec's decision (D18, D30). -/
def Obligations.LoadCopiesTheImage : Prop :=
  ∀ (image : List Byte) (s : State),
    (∀ k, k < 3584 → (h : k < image.length) → (s.load image).mem.read (0x200 + k) = image[k]) ∧
    (∀ a, ¬(0x200 ≤ a ∧ a < 0x200 + min image.length 3584) → (s.load image).mem.read a = s.mem.read a) ∧
    (∀ it : Item, (∀ a, it ≠ .byte a) → it.same s (s.load image))

/-- `key_down(k)` and `key_up(k)` set and clear the state of key `k` alone; a number above 15 changes nothing (R226). -/
def Obligations.KeyEventsSetAndClearOneKey : Prop :=
  ∀ (k : Nat) (s : State),
    (∀ h : k < 16, (s.keyDown k).keys[k] = true ∧ (s.keyUp k).keys[k] = false ∧
      (∀ it : Item, it ≠ .key ⟨k, h⟩ → it.same s (s.keyDown k) ∧ it.same s (s.keyUp k))) ∧
    (15 < k → s.keyDown k = s ∧ s.keyUp k = s)

/-- Clearing the dirty flag changes that flag alone; the framebuffer view gives all 2048 pixels and changes nothing (R227);
their row-major order is the spec's suggestion (D25). -/
def Obligations.PresenterReadsAndClears : Prop :=
  ∀ s : State, s.clearDirty.readDirty = false ∧ (∀ it : Item, it ≠ .dirty → it.same s s.clearDirty) ∧
    s.readFramebuffer.length = 2048 ∧
    ∀ (x : Fin 64) (y : Fin 32), s.readFramebuffer[y.val * 64 + x.val]? = some (s.fb.pixel x y)
end

