-- ==== Sys2Proof/Laws/Display.lean ====
section
/-! SUPPORT. What drawing a sprite does to every pixel, and when it reports a collision (R172 to R175). -/

namespace Sys2Proof.Machine

/-- What a pixel is after another was toggled (R172, R173). -/
theorem Framebuffer.pixel_toggle (fb : Framebuffer) (x y : Nat) (px : Fin 64) (py : Fin 32) :
   (fb.toggle x y).pixel px py = (fb.pixel px py ^^ (x % 64 == px.val && y % 32 == py.val)) := by
  have h1 : px.val % 64 = px.val := Nat.mod_eq_of_lt px.isLt
  have h2 : py.val % 32 = py.val := Nat.mod_eq_of_lt py.isLt
  simp only [Framebuffer.pixel, Framebuffer.toggle, h1, h2, Vector.getElem_set]
  by_cases hy : y % 32 = py.val
  · simp only [hy, if_true, BitVec.getLsbD_xor, BitVec.getLsbD_twoPow]
    have : x % 64 < 64 := Nat.mod_lt _ (by decide)
    simp [this]
    by_cases hx : x % 64 = px.val <;> simp [hx]
  · have : (y % 32 == py.val) = false := by simpa using hy
    rw [this]; simp [hy]

/-- A pixel is named by its column modulo 64 and its row modulo 32. -/
theorem Framebuffer.pixel_congr (fb : Framebuffer) {x y a b : Nat} (h : x % 64 = a % 64) (h' : y % 32 = b % 32) : fb.pixel x y = fb.pixel a b := by
  simp only [Framebuffer.pixel, h, h']

/-- The bits of a list drawn one after another, each with its column and row. -/
def drawBits (l : List (Nat × Nat × Bool)) (d : Framebuffer × Bool) : Framebuffer × Bool :=
  l.foldl (fun d p => drawBit p.1 p.2.1 p.2.2 d) d

/-- A 1 bit of the list falls on the pixel. -/
def bitsCover (l : List (Nat × Nat × Bool)) (px : Fin 64) (py : Fin 32) : Bool :=
  l.any fun p => p.2.2 && (p.1 % 64 == px.val && p.2.1 % 32 == py.val)

/-- Bits on pairwise different pixels: each pixel is toggled exactly if a 1 bit falls on it, and the collision is reported
exactly if one of those pixels was on before (R173, R175). -/
theorem drawBits_spec (l : List (Nat × Nat × Bool)) (hl : l.Pairwise fun p q => ¬ (p.1 % 64 = q.1 % 64 ∧ p.2.1 % 32 = q.2.1 % 32)) :
    ∀ d, (∀ px py, (drawBits l d).1.pixel px.val py.val = (d.1.pixel px.val py.val ^^ bitsCover l px py)) ∧
     ((drawBits l d).2 = true ↔ d.2 = true ∨ ∃ px py, bitsCover l px py = true ∧ d.1.pixel px.val py.val = true) := by
  induction l with
  | nil => intro d; simp [drawBits, bitsCover]
  | cons p l ih =>
    intro d
    obtain ⟨hp, hl'⟩ := List.pairwise_cons.1 hl
    have h1 : ∀ px py, bitsCover (p :: l) px py = ((p.2.2 && (p.1 % 64 == px.val && p.2.1 % 32 == py.val)) || bitsCover l px py) := by
      intro px py; simp [bitsCover]
    have ht : drawBits (p :: l) d = drawBits l (drawBit p.1 p.2.1 p.2.2 d) := rfl
    obtain ⟨i1, i2⟩ := ih hl' (drawBit p.1 p.2.1 p.2.2 d)
    rw [ht]
    have hdis : ∀ px py, (p.1 % 64 == px.val && p.2.1 % 32 == py.val) = true → bitsCover l px py = false := by
      intro px py h
      simp only [Bool.and_eq_true, beq_iff_eq] at h
      rw [bitsCover, List.any_eq_false]
      intro q hq
      simp only [Bool.and_eq_true, beq_iff_eq, not_and]
      intro _ ha hb
      exact hp q hq ⟨by omega, by omega⟩
    constructor
    · intro px py
      rw [i1, h1]
      by_cases hb : p.2.2 = true
      · simp only [drawBit, hb, if_true, Framebuffer.pixel_toggle, Bool.true_and]
        by_cases hc : (p.1 % 64 == px.val && p.2.1 % 32 == py.val) = true
        · rw [hdis px py hc, hc]; simp
        · simp only [Bool.not_eq_true] at hc; rw [hc]; simp
      · simp only [Bool.not_eq_true] at hb
        simp [drawBit, hb]
    · rw [i2]
      by_cases hb : p.2.2 = true
      · simp only [drawBit, hb, if_true, Bool.or_eq_true]
        have hx : p.1 % 64 < 64 := Nat.mod_lt _ (by decide)
        have hy : p.2.1 % 32 < 32 := Nat.mod_lt _ (by decide)
        constructor
        · rintro ((h | h) | ⟨px, py, h, h'⟩)
          · exact .inl h
          · refine .inr ⟨⟨p.1 % 64, hx⟩, ⟨p.2.1 % 32, hy⟩, ?_, ?_⟩
            · rw [h1]; simp [hb]
            · rw [← h]; exact Framebuffer.pixel_congr _ (by simp) (by simp)
          · refine .inr ⟨px, py, by rw [h1, h]; simp, ?_⟩
            rw [Framebuffer.pixel_toggle] at h'
            have : (p.1 % 64 == px.val && p.2.1 % 32 == py.val) = false := by
              by_contra hc; simp only [Bool.not_eq_false] at hc; rw [hdis px py hc] at h; cases h
            rw [this] at h'; simpa using h'
        · rintro (h | ⟨px, py, h, h'⟩)
          · exact .inl (.inl h)
          · rw [h1] at h
            by_cases hc : (p.1 % 64 == px.val && p.2.1 % 32 == py.val) = true
            · refine .inl (.inr ?_)
              rw [← h']; simp only [Bool.and_eq_true, beq_iff_eq] at hc
              exact Framebuffer.pixel_congr _ (by omega) (by omega)
            · simp only [Bool.not_eq_true] at hc
              rw [hc] at h; simp only [Bool.and_false, Bool.false_or] at h
              exact .inr ⟨px, py, h, by rw [Framebuffer.pixel_toggle, hc, h']; rfl⟩
      · simp only [Bool.not_eq_true] at hb
        simp only [drawBit, hb, h1]; simp

/-- The bits of a sprite row, with their columns and row. -/
def rowBits (x y : Nat) (b : Byte) : List (Nat × Nat × Bool) := (List.range 8).map fun c => (x + c, y, spriteBit b c)
/-- The bits of a sprite, row after row. -/
def rowsBits (x : Nat) : Nat → List Byte → List (Nat × Nat × Bool)
  | _, [] => []
  | y, b :: bs => rowBits x y b ++ rowsBits x (y+1) bs

theorem drawRow_eq (x y : Nat) (b : Byte) (d) : drawRow x y b d = drawBits (rowBits x y b) d := by
  simp [drawRow, drawBits, rowBits, List.foldl_map]
theorem drawRows_eq (x : Nat) (bs : List Byte) : ∀ y d, drawRows x y bs d = drawBits (rowsBits x y bs) d := by
  induction bs with
  | nil => intro y d; rfl
  | cons b bs ih => intro y d; rw [drawRows, ih, drawRow_eq]; simp [drawBits, rowsBits, List.foldl_append]

theorem mem_rowsBits (x : Nat) (bs : List Byte) : ∀ y p, p ∈ rowsBits x y bs ↔ ∃ r, ∃ h : r < bs.length, ∃ c, c < 8 ∧ p = (x + c, y + r, spriteBit bs[r] c) := by
  induction bs with
  | nil => intro y p; simp [rowsBits]
  | cons b bs ih =>
    intro y p
    rw [rowsBits, List.mem_append, ih]
    constructor
    · rintro (h | ⟨r, h, c, hc, rfl⟩)
      · simp only [rowBits, List.mem_map, List.mem_range] at h
        obtain ⟨c, hc, rfl⟩ := h
        exact ⟨0, by simp, c, hc, rfl⟩
      · exact ⟨r+1, by simp; omega, c, hc, by simp; omega⟩
    · rintro ⟨r, h, c, hc, rfl⟩
      cases r with
      | zero => left; simp only [rowBits, List.mem_map, List.mem_range]; exact ⟨c, hc, rfl⟩
      | succ r => right; exact ⟨r, by simpa using h, c, hc, by simp; omega⟩

theorem rowBits_pairwise (x y : Nat) (b : Byte) : (rowBits x y b).Pairwise fun p q => ¬ (p.1 % 64 = q.1 % 64 ∧ p.2.1 % 32 = q.2.1 % 32) := by
  rw [rowBits, List.pairwise_map]
  refine List.Pairwise.imp_of_mem ?_ (List.pairwise_lt_range (n := 8))
  intro a b ha hb hab
  simp only [List.mem_range] at ha hb
  rintro ⟨h, _⟩; simp only at h; omega
theorem rowsBits_pairwise (x : Nat) (bs : List Byte) : ∀ y, bs.length ≤ 32 → (rowsBits x y bs).Pairwise fun p q => ¬ (p.1 % 64 = q.1 % 64 ∧ p.2.1 % 32 = q.2.1 % 32) := by
  induction bs with
  | nil => intro y _; exact .nil
  | cons b bs ih =>
    intro y h
    simp only [List.length_cons] at h
    rw [rowsBits, List.pairwise_append]
    refine ⟨rowBits_pairwise x y b, ih (y+1) (by omega), ?_⟩
    intro p hp q hq
    simp only [rowBits, List.mem_map, List.mem_range] at hp
    obtain ⟨c, hc, rfl⟩ := hp
    obtain ⟨r, hr, c', hc', rfl⟩ := (mem_rowsBits _ _ _ _).1 hq
    rintro ⟨_, h⟩; simp only at h; omega

/-- A pixel a sprite's 1 bit falls on: columns from `x`, rows from `y`, both wrapping (R173, R174). -/
def rowsCover (x y : Nat) (rows : List Byte) (px : Fin 64) (py : Fin 32) : Prop :=
  ∃ r, ∃ h : r < rows.length, ∃ c, c < 8 ∧ spriteBit rows[r] c = true ∧ (x + c) % 64 = px.val ∧ (y + r) % 32 = py.val

theorem bitsCover_rowsBits (x y : Nat) (rows : List Byte) (px : Fin 64) (py : Fin 32) :
    bitsCover (rowsBits x y rows) px py = true ↔ rowsCover x y rows px py := by
  rw [bitsCover, List.any_eq_true]
  constructor
  · rintro ⟨p, hp, h⟩
    obtain ⟨r, hr, c, hc, rfl⟩ := (mem_rowsBits _ _ _ _).1 hp
    exact ⟨r, hr, c, hc, by simpa using h⟩
  · rintro ⟨r, hr, c, hc, h⟩
    exact ⟨_, (mem_rowsBits _ _ _ _).2 ⟨r, hr, c, hc, rfl⟩, by simpa using h⟩

/-- Drawing a sprite of at most 32 rows on a framebuffer: a covered pixel is toggled, any other stays, and the collision is
reported exactly if a covered pixel was on (R172, R175). -/
theorem drawSprite_spec (fb : Framebuffer) (x y : Nat) (rows : List Byte) (h : rows.length ≤ 32) :
    (∀ px py, rowsCover x y rows px py → (drawSprite fb x y rows).1.pixel px.val py.val = !fb.pixel px.val py.val) ∧
    (∀ px py, ¬ rowsCover x y rows px py → (drawSprite fb x y rows).1.pixel px.val py.val = fb.pixel px.val py.val) ∧
    ((drawSprite fb x y rows).2 = true ↔ ∃ px py, rowsCover x y rows px py ∧ fb.pixel px.val py.val = true) := by
  obtain ⟨h1, h2⟩ := drawBits_spec _ (rowsBits_pairwise x rows y h) (fb, false)
  rw [← drawRows_eq] at h1 h2
  refine ⟨fun px py hc => ?_, fun px py hc => ?_, ?_⟩
  · exact (h1 px py).trans (by rw [(bitsCover_rowsBits x y rows px py).2 hc, Bool.xor_true])
  · have : bitsCover (rowsBits x y rows) px py = false := by
      rw [← Bool.not_eq_true]; exact fun e => hc ((bitsCover_rowsBits x y rows px py).1 e)
    exact (h1 px py).trans (by rw [this, Bool.xor_false])
  · simp only [bitsCover_rowsBits] at h2
    exact h2.trans ⟨fun e => e.resolve_left (by simp), .inr⟩

end Sys2Proof.Machine
end

