-- ==== Sys2Proof/Laws/Encoding.lean ====
section
/-! SUPPORT. The value of an encoded word from its fields, for each format of R62, the fields read back from it, and the
bytes of a word put together again. -/

namespace Sys2Proof

/-- Two bit vectors side by side, as a number. -/
theorem toNat_append_eq {m n : Nat} (a : BitVec m) (b : BitVec n) : (a ++ b).toNat = a.toNat * 2 ^ n + b.toNat := by
  rw [BitVec.toNat_append, ← Nat.shiftLeft_add_eq_or_of_lt b.isLt, Nat.shiftLeft_eq]

theorem formatA_toNat (o : Nibble) (nnn : Addr12) : (formatA o nnn).toNat = o.toNat * 4096 + nnn.toNat :=
  toNat_append_eq o nnn

theorem formatXI_toNat (o : Nibble) (x : RegId) (nn : Byte) :
    (formatXI o x nn).toNat = o.toNat * 4096 + x.toNat * 256 + nn.toNat := by
  refine (toNat_append_eq (o ++ x) nn).trans ?_
  rw [toNat_append_eq o x]
  omega

theorem formatXY_toNat (o : Nibble) (x y : RegId) (s : Nibble) :
    (formatXY o x y s).toNat = o.toNat * 4096 + x.toNat * 256 + y.toNat * 16 + s.toNat := by
  refine (toNat_append_eq (o ++ x) (y ++ s)).trans ?_
  rw [toNat_append_eq o x, toNat_append_eq y s]
  omega

theorem formatXS_toNat (o : Nibble) (x : RegId) (s : Byte) :
    (formatXS o x s).toNat = o.toNat * 4096 + x.toNat * 256 + s.toNat := formatXI_toNat o x s

theorem fieldO_toNat (w : Word) : (fieldO w).toNat = w.toNat / 4096 := by
  have := w.isLt
  simp only [fieldO, BitVec.extractLsb'_toNat, Nat.shiftRight_eq_div_pow]
  omega

theorem fieldX_toNat (w : Word) : (fieldX w).toNat = w.toNat / 256 % 16 := by
  simp only [fieldX, BitVec.extractLsb'_toNat, Nat.shiftRight_eq_div_pow]

theorem fieldY_toNat (w : Word) : (fieldY w).toNat = w.toNat / 16 % 16 := by
  simp only [fieldY, BitVec.extractLsb'_toNat, Nat.shiftRight_eq_div_pow]

theorem fieldN_toNat (w : Word) : (fieldN w).toNat = w.toNat % 16 := by
  simp [fieldN, BitVec.extractLsb'_toNat]

theorem fieldNN_toNat (w : Word) : (fieldNN w).toNat = w.toNat % 256 := by
  simp [fieldNN, BitVec.extractLsb'_toNat]

theorem fieldNNN_toNat (w : Word) : (fieldNNN w).toNat = w.toNat % 4096 := by
  simp [fieldNNN, BitVec.extractLsb'_toNat]

theorem fields_formatA (o : Nibble) (nnn : Addr12) :
    fieldO (formatA o nnn) = o ∧ fieldNNN (formatA o nnn) = nnn := by
  have := nnn.isLt
  refine ⟨BitVec.eq_of_toNat_eq ?_, BitVec.eq_of_toNat_eq ?_⟩
  · rw [fieldO_toNat, formatA_toNat]; omega
  · rw [fieldNNN_toNat, formatA_toNat]; omega

theorem fields_formatXI (o : Nibble) (x : RegId) (nn : Byte) :
    fieldO (formatXI o x nn) = o ∧ fieldX (formatXI o x nn) = x ∧ fieldNN (formatXI o x nn) = nn := by
  have := x.isLt
  have := nn.isLt
  refine ⟨BitVec.eq_of_toNat_eq ?_, BitVec.eq_of_toNat_eq ?_, BitVec.eq_of_toNat_eq ?_⟩
  · rw [fieldO_toNat, formatXI_toNat]; omega
  · rw [fieldX_toNat, formatXI_toNat]; omega
  · rw [fieldNN_toNat, formatXI_toNat]; omega

theorem fields_formatXS (o : Nibble) (x : RegId) (s : Byte) :
    fieldO (formatXS o x s) = o ∧ fieldX (formatXS o x s) = x ∧ fieldNN (formatXS o x s) = s := fields_formatXI o x s

theorem fields_formatXY (o : Nibble) (x y : RegId) (s : Nibble) :
    fieldO (formatXY o x y s) = o ∧ fieldX (formatXY o x y s) = x ∧ fieldY (formatXY o x y s) = y ∧
      fieldN (formatXY o x y s) = s := by
  have := x.isLt
  have := y.isLt
  have := s.isLt
  refine ⟨BitVec.eq_of_toNat_eq ?_, BitVec.eq_of_toNat_eq ?_, BitVec.eq_of_toNat_eq ?_, BitVec.eq_of_toNat_eq ?_⟩
  · rw [fieldO_toNat, formatXY_toNat]; omega
  · rw [fieldX_toNat, formatXY_toNat]; omega
  · rw [fieldY_toNat, formatXY_toNat]; omega
  · rw [fieldN_toNat, formatXY_toNat]; omega

/-- The word two bytes make, as a number (R48, R82). -/
theorem wordOfBytes_toNat (hi lo : Byte) : (wordOfBytes hi lo).toNat = hi.toNat * 256 + lo.toNat := toNat_append_eq hi lo

/-- The two bytes of a word make that word. -/
theorem wordOfBytes_bytesOfWord (w : Word) : wordOfBytes (w.extractLsb' 8 8) (w.extractLsb' 0 8) = w := by
  have := w.isLt
  apply BitVec.eq_of_toNat_eq
  rw [wordOfBytes_toNat]
  simp only [BitVec.extractLsb'_toNat, Nat.shiftRight_eq_div_pow]
  omega

end Sys2Proof
end

