-- ==== Sys2Proof/Laws/Memory.lean ====
section
/-! SUPPORT. The laws of memory: a read after a write, other addresses, and the canonical form that every operation keeps. -/

namespace Sys2Proof.Machine

theorem Memory.read_erase_ne (m : Memory) {a b : Nat} (h : b ≠ a) : (m.erase a).read b = m.read b := by
  induction m with
  | nil => rfl
  | cons c m ih =>
    obtain ⟨d, w⟩ := c
    by_cases hd : d = a
    · subst hd
      have : Memory.erase ((d, w) :: m) d = Memory.erase m d := by simp [Memory.erase]
      rw [this, ih]; simp [Memory.read, h]
    · have : Memory.erase ((d, w) :: m) a = (d, w) :: Memory.erase m a := by simp [Memory.erase, hd]
      rw [this]; simp only [Memory.read]; rw [ih]

theorem Memory.read_erase_same (m : Memory) (a : Nat) : (m.erase a).read a = Memory.resetByte a := by
  induction m with
  | nil => rfl
  | cons c m ih =>
    obtain ⟨d, w⟩ := c
    by_cases hd : d = a
    · subst hd
      have : Memory.erase ((d, w) :: m) d = Memory.erase m d := by simp [Memory.erase]
      rw [this, ih]
    · have : Memory.erase ((d, w) :: m) a = (d, w) :: Memory.erase m a := by simp [Memory.erase, hd]
      rw [this]; simp only [Memory.read]; rw [if_neg (fun e => hd e.symm), ih]

theorem Memory.read_insert_ne (m : Memory) {a b : Nat} (x : Byte) (h : b ≠ a) : (m.insert a x).read b = m.read b := by
  induction m with
  | nil => simp [Memory.insert, Memory.read, h]
  | cons c m ih =>
    obtain ⟨d, w⟩ := c
    by_cases hd : a < d
    · simp [Memory.insert, Memory.read, hd, h]
    · simp only [Memory.insert, if_neg hd, Memory.read]; rw [ih]

theorem Memory.read_insert_same (m : Memory) (a : Nat) (x : Byte) (h : ∀ c ∈ m, c.1 ≠ a) : (m.insert a x).read a = x := by
  induction m with
  | nil => simp [Memory.insert, Memory.read]
  | cons c m ih =>
    obtain ⟨d, w⟩ := c
    have hne : a ≠ d := fun e => h (d, w) (by simp) e.symm
    have ih' := ih fun c hc => h c (List.mem_cons_of_mem _ hc)
    by_cases hd : a < d
    · simp [Memory.insert, Memory.read, hd]
    · simp only [Memory.insert, if_neg hd, Memory.read, if_neg hne]; exact ih'

/-- A read after a write to the same address gives the byte written, in any memory. -/
@[simp] theorem Memory.read_write_same (m : Memory) (a : Nat) (x : Byte) : (m.write a x).read a = x := by
  unfold Memory.write
  split
  · next h => rw [Memory.read_erase_same, h]
  · exact Memory.read_insert_same _ _ _ (by simp [Memory.erase])

/-- A write leaves every other address alone, in any memory. -/
theorem Memory.read_write_ne (m : Memory) {a b : Nat} (x : Byte) (h : b ≠ a) : (m.write a x).read b = m.read b := by
  unfold Memory.write
  split
  · exact Memory.read_erase_ne m h
  · rw [Memory.read_insert_ne _ _ h, Memory.read_erase_ne m h]

theorem Memory.wfFrom_weaken {lo lo' : Nat} (h : lo' ≤ lo) (m : Memory) (hm : Memory.wfFrom lo m = true) :
    Memory.wfFrom lo' m = true := by
  cases m with
  | nil => rfl
  | cons c m =>
    obtain ⟨d, w⟩ := c
    simp only [Memory.wfFrom, Bool.and_eq_true, decide_eq_true_eq] at hm ⊢
    exact ⟨⟨⟨h.trans hm.1.1.1, hm.1.1.2⟩, hm.1.2⟩, hm.2⟩

theorem Memory.wfFrom_erase (m : Memory) (a : Nat) : ∀ lo, Memory.wfFrom lo m = true → Memory.wfFrom lo (m.erase a) = true := by
  induction m with
  | nil => intro lo _; rfl
  | cons c m ih =>
    obtain ⟨d, w⟩ := c
    intro lo hm
    simp only [Memory.wfFrom, Bool.and_eq_true, decide_eq_true_eq] at hm
    by_cases hd : d = a
    · subst hd
      have : Memory.erase ((d, w) :: m) d = Memory.erase m d := by simp [Memory.erase]
      rw [this]
      exact ih lo (Memory.wfFrom_weaken (by omega) m hm.2)
    · have : Memory.erase ((d, w) :: m) a = (d, w) :: Memory.erase m a := by simp [Memory.erase, hd]
      rw [this]
      simp only [Memory.wfFrom, Bool.and_eq_true, decide_eq_true_eq]
      exact ⟨hm.1, ih _ hm.2⟩

theorem Memory.wfFrom_insert (m : Memory) (a : Nat) (x : Byte) (ha : a < memSize) (hx : x ≠ Memory.resetByte a) :
    ∀ lo, lo ≤ a → (∀ c ∈ m, c.1 ≠ a) → Memory.wfFrom lo m = true → Memory.wfFrom lo (m.insert a x) = true := by
  induction m with
  | nil => intro lo hlo _ _; simp [Memory.insert, Memory.wfFrom, hlo, ha, hx]
  | cons c m ih =>
    obtain ⟨d, w⟩ := c
    intro lo hlo hne hm
    simp only [Memory.wfFrom, Bool.and_eq_true, decide_eq_true_eq] at hm
    have hd : d ≠ a := hne (d, w) (by simp)
    by_cases h : a < d
    · simp only [Memory.insert, if_pos h, Memory.wfFrom, Bool.and_eq_true, decide_eq_true_eq]
      exact ⟨⟨⟨hlo, ha⟩, by simpa using hx⟩, ⟨⟨by omega, hm.1.1.2⟩, hm.1.2⟩, hm.2⟩
    · simp only [Memory.insert, if_neg h, Memory.wfFrom, Bool.and_eq_true, decide_eq_true_eq]
      exact ⟨hm.1, ih (d + 1) (by omega) (fun c hc => hne c (List.mem_cons_of_mem _ hc)) hm.2⟩

/-- A write inside memory keeps the canonical form. -/
theorem Memory.wf_write (m : Memory) (a : Nat) (x : Byte) (ha : a < memSize) (hm : m.wf = true) : (m.write a x).wf = true := by
  unfold Memory.write
  split
  · exact Memory.wfFrom_erase m a 0 hm
  · next hx => exact Memory.wfFrom_insert _ a x ha hx 0 (Nat.zero_le _) (by simp [Memory.erase]) (Memory.wfFrom_erase m a 0 hm)

/-- Writing a run of bytes inside memory keeps the canonical form. -/
theorem Memory.wf_writeBytes (xs : List Byte) : ∀ (m : Memory) (a : Nat), a + xs.length ≤ memSize → m.wf = true →
    (m.writeBytes a xs).wf = true := by
  induction xs with
  | nil => intro m a _ hm; exact hm
  | cons x xs ih =>
    intro m a ha hm
    simp only [List.length_cons] at ha
    exact ih _ _ (by omega) (Memory.wf_write m a x (by omega) hm)

/-- What every address reads as after a run of bytes was written. -/
theorem Memory.read_writeBytes (xs : List Byte) : ∀ (m : Memory) (a b : Nat),
    (m.writeBytes a xs).read b = if h : a ≤ b ∧ b < a + xs.length then xs[b - a]'(by omega) else m.read b := by
  induction xs with
  | nil =>
    intro m a b
    rw [dif_neg (by rw [List.length_nil]; omega)]
    rfl
  | cons x xs ih =>
    intro m a b
    simp only [Memory.writeBytes, ih, List.length_cons]
    by_cases hb : b = a
    · subst hb; simp
    · by_cases h1 : a + 1 ≤ b ∧ b < a + 1 + xs.length
      · rw [dif_pos h1, dif_pos (by omega), List.getElem_cons, dif_neg (by omega)]
        congr 1
      · rw [dif_neg h1, dif_neg (by omega), Memory.read_write_ne m x hb]

/-- A run of bytes leaves every address outside it alone. -/
theorem Memory.read_writeBytes_outside (xs : List Byte) (m : Memory) (a b : Nat) (h : ¬(a ≤ b ∧ b < a + xs.length)) :
    (m.writeBytes a xs).read b = m.read b := by
  rw [Memory.read_writeBytes, dif_neg h]

@[simp] theorem Memory.readBytes_length (m : Memory) (a n : Nat) : (m.readBytes a n).length = n := by
  simp [Memory.readBytes]

@[simp] theorem Memory.readBytes_getElem (m : Memory) (a n k : Nat) (h : k < (m.readBytes a n).length) :
    (m.readBytes a n)[k] = m.read (a + k) := by
  simp [Memory.readBytes]

/-- An empty memory is canonical. -/
theorem Memory.wf_nil : Memory.wf [] = true := rfl

end Sys2Proof.Machine
end

