-- ==== Sys2Proof/Laws/HostOps.lean ====
section
/-! SUPPORT. Memory's canonical form holds at reset and is kept by everything that writes memory besides a single byte: a
block, the host's load, and placing an instruction. -/

namespace Sys2Proof.Machine

theorem State.reset_mem_wf : State.reset.mem.wf = true := Memory.wf_nil

/-- A block write keeps the canonical form: it writes only after its range check (R45). -/
theorem State.writeBlock_wf {s t : State} {a : Nat} {bytes : List Byte} (hs : s.mem.wf = true)
    (h : s.writeBlock a bytes = .ok t) : t.mem.wf = true := by
  unfold State.writeBlock at h
  split at h
  · cases h
  · rename_i hf
    cases h
    cases bytes with
    | nil => exact hs
    | cons b bs =>
      refine Memory.wf_writeBytes _ _ _ ?_ hs
      unfold accessFault at hf
      split at hf
      · cases hf
      · rename_i hc
        simp only [List.length_cons] at hc ⊢
        simp only [memSize]
        omega

/-- The host's load keeps the canonical form: its last byte goes to 0xFFF at the most (R229). -/
theorem State.load_wf (image : List Byte) (s : State) (hs : s.mem.wf = true) : (s.load image).mem.wf = true := by
  refine Memory.wf_writeBytes _ _ _ ?_ hs
  simp only [List.length_take, maxImage, loadBase, memSize]
  omega

/-- Placing an instruction keeps the canonical form. -/
theorem State.placeWord_wf (s : State) (w : Word) (hs : s.mem.wf = true) : (s.placeWord w).mem.wf = true := by
  refine Memory.wf_writeBytes _ _ _ ?_ hs
  show s.fetchSpot.toNat + 2 ≤ memSize
  unfold State.fetchSpot memSize
  split
  · decide
  · omega

end Sys2Proof.Machine
end

