-- ==== Sys2Proof/Laws/State.lean ====
section
/-! SUPPORT. One lemma per field per named update of the state, true by rfl, so that no later proof unfolds a record
update; and what reading a register gives after each. -/

namespace Sys2Proof.Machine

/-! ### setReg -/

@[simp] theorem State.setReg_mem (s : State) (x : RegId) (b : Byte) : (s.setReg x b).mem = s.mem := rfl
@[simp] theorem State.setReg_v (s : State) (x : RegId) (b : Byte) : (s.setReg x b).v = s.v.set x.toNat b := rfl
@[simp] theorem State.setReg_index (s : State) (x : RegId) (b : Byte) : (s.setReg x b).index = s.index := rfl
@[simp] theorem State.setReg_pc (s : State) (x : RegId) (b : Byte) : (s.setReg x b).pc = s.pc := rfl
@[simp] theorem State.setReg_stack (s : State) (x : RegId) (b : Byte) : (s.setReg x b).stack = s.stack := rfl
@[simp] theorem State.setReg_sp (s : State) (x : RegId) (b : Byte) : (s.setReg x b).sp = s.sp := rfl
@[simp] theorem State.setReg_delay (s : State) (x : RegId) (b : Byte) : (s.setReg x b).delay = s.delay := rfl
@[simp] theorem State.setReg_sound (s : State) (x : RegId) (b : Byte) : (s.setReg x b).sound = s.sound := rfl
@[simp] theorem State.setReg_acc (s : State) (x : RegId) (b : Byte) : (s.setReg x b).acc = s.acc := rfl
@[simp] theorem State.setReg_fb (s : State) (x : RegId) (b : Byte) : (s.setReg x b).fb = s.fb := rfl
@[simp] theorem State.setReg_dirty (s : State) (x : RegId) (b : Byte) : (s.setReg x b).dirty = s.dirty := rfl
@[simp] theorem State.setReg_mode (s : State) (x : RegId) (b : Byte) : (s.setReg x b).mode = s.mode := rfl
@[simp] theorem State.setReg_keys (s : State) (x : RegId) (b : Byte) : (s.setReg x b).keys = s.keys := rfl
@[simp] theorem State.setReg_elapsed (s : State) (x : RegId) (b : Byte) : (s.setReg x b).elapsed = s.elapsed := rfl
@[simp] theorem State.setReg_rnd (s : State) (x : RegId) (b : Byte) : (s.setReg x b).rnd = s.rnd := rfl
@[simp] theorem State.setReg_result (s : State) (x : RegId) (b : Byte) : (s.setReg x b).result = s.result := rfl
@[simp] theorem State.setReg_tone (s : State) (x : RegId) (b : Byte) : (s.setReg x b).tone = s.tone := rfl
@[simp] theorem State.setReg_feed (s : State) (x : RegId) (b : Byte) : (s.setReg x b).feed = s.feed := rfl
@[simp] theorem State.setReg_cycles (s : State) (x : RegId) (b : Byte) : (s.setReg x b).cycles = s.cycles := rfl

/-! ### setFlag -/

@[simp] theorem State.setFlag_mem (s : State) (b : Byte) : (s.setFlag b).mem = s.mem := rfl
@[simp] theorem State.setFlag_v (s : State) (b : Byte) : (s.setFlag b).v = s.v.set 15 b := rfl
@[simp] theorem State.setFlag_index (s : State) (b : Byte) : (s.setFlag b).index = s.index := rfl
@[simp] theorem State.setFlag_pc (s : State) (b : Byte) : (s.setFlag b).pc = s.pc := rfl
@[simp] theorem State.setFlag_stack (s : State) (b : Byte) : (s.setFlag b).stack = s.stack := rfl
@[simp] theorem State.setFlag_sp (s : State) (b : Byte) : (s.setFlag b).sp = s.sp := rfl
@[simp] theorem State.setFlag_delay (s : State) (b : Byte) : (s.setFlag b).delay = s.delay := rfl
@[simp] theorem State.setFlag_sound (s : State) (b : Byte) : (s.setFlag b).sound = s.sound := rfl
@[simp] theorem State.setFlag_acc (s : State) (b : Byte) : (s.setFlag b).acc = s.acc := rfl
@[simp] theorem State.setFlag_fb (s : State) (b : Byte) : (s.setFlag b).fb = s.fb := rfl
@[simp] theorem State.setFlag_dirty (s : State) (b : Byte) : (s.setFlag b).dirty = s.dirty := rfl
@[simp] theorem State.setFlag_mode (s : State) (b : Byte) : (s.setFlag b).mode = s.mode := rfl
@[simp] theorem State.setFlag_keys (s : State) (b : Byte) : (s.setFlag b).keys = s.keys := rfl
@[simp] theorem State.setFlag_elapsed (s : State) (b : Byte) : (s.setFlag b).elapsed = s.elapsed := rfl
@[simp] theorem State.setFlag_rnd (s : State) (b : Byte) : (s.setFlag b).rnd = s.rnd := rfl
@[simp] theorem State.setFlag_result (s : State) (b : Byte) : (s.setFlag b).result = s.result := rfl
@[simp] theorem State.setFlag_tone (s : State) (b : Byte) : (s.setFlag b).tone = s.tone := rfl
@[simp] theorem State.setFlag_feed (s : State) (b : Byte) : (s.setFlag b).feed = s.feed := rfl
@[simp] theorem State.setFlag_cycles (s : State) (b : Byte) : (s.setFlag b).cycles = s.cycles := rfl

/-! ### setIndex -/

@[simp] theorem State.setIndex_mem (s : State) (w : Word) : (s.setIndex w).mem = s.mem := rfl
@[simp] theorem State.setIndex_v (s : State) (w : Word) : (s.setIndex w).v = s.v := rfl
@[simp] theorem State.setIndex_index (s : State) (w : Word) : (s.setIndex w).index = w := rfl
@[simp] theorem State.setIndex_pc (s : State) (w : Word) : (s.setIndex w).pc = s.pc := rfl
@[simp] theorem State.setIndex_stack (s : State) (w : Word) : (s.setIndex w).stack = s.stack := rfl
@[simp] theorem State.setIndex_sp (s : State) (w : Word) : (s.setIndex w).sp = s.sp := rfl
@[simp] theorem State.setIndex_delay (s : State) (w : Word) : (s.setIndex w).delay = s.delay := rfl
@[simp] theorem State.setIndex_sound (s : State) (w : Word) : (s.setIndex w).sound = s.sound := rfl
@[simp] theorem State.setIndex_acc (s : State) (w : Word) : (s.setIndex w).acc = s.acc := rfl
@[simp] theorem State.setIndex_fb (s : State) (w : Word) : (s.setIndex w).fb = s.fb := rfl
@[simp] theorem State.setIndex_dirty (s : State) (w : Word) : (s.setIndex w).dirty = s.dirty := rfl
@[simp] theorem State.setIndex_mode (s : State) (w : Word) : (s.setIndex w).mode = s.mode := rfl
@[simp] theorem State.setIndex_keys (s : State) (w : Word) : (s.setIndex w).keys = s.keys := rfl
@[simp] theorem State.setIndex_elapsed (s : State) (w : Word) : (s.setIndex w).elapsed = s.elapsed := rfl
@[simp] theorem State.setIndex_rnd (s : State) (w : Word) : (s.setIndex w).rnd = s.rnd := rfl
@[simp] theorem State.setIndex_result (s : State) (w : Word) : (s.setIndex w).result = s.result := rfl
@[simp] theorem State.setIndex_tone (s : State) (w : Word) : (s.setIndex w).tone = s.tone := rfl
@[simp] theorem State.setIndex_feed (s : State) (w : Word) : (s.setIndex w).feed = s.feed := rfl
@[simp] theorem State.setIndex_cycles (s : State) (w : Word) : (s.setIndex w).cycles = s.cycles := rfl

/-! ### setPc -/

@[simp] theorem State.setPc_mem (s : State) (w : Word) : (s.setPc w).mem = s.mem := rfl
@[simp] theorem State.setPc_v (s : State) (w : Word) : (s.setPc w).v = s.v := rfl
@[simp] theorem State.setPc_index (s : State) (w : Word) : (s.setPc w).index = s.index := rfl
@[simp] theorem State.setPc_pc (s : State) (w : Word) : (s.setPc w).pc = w := rfl
@[simp] theorem State.setPc_stack (s : State) (w : Word) : (s.setPc w).stack = s.stack := rfl
@[simp] theorem State.setPc_sp (s : State) (w : Word) : (s.setPc w).sp = s.sp := rfl
@[simp] theorem State.setPc_delay (s : State) (w : Word) : (s.setPc w).delay = s.delay := rfl
@[simp] theorem State.setPc_sound (s : State) (w : Word) : (s.setPc w).sound = s.sound := rfl
@[simp] theorem State.setPc_acc (s : State) (w : Word) : (s.setPc w).acc = s.acc := rfl
@[simp] theorem State.setPc_fb (s : State) (w : Word) : (s.setPc w).fb = s.fb := rfl
@[simp] theorem State.setPc_dirty (s : State) (w : Word) : (s.setPc w).dirty = s.dirty := rfl
@[simp] theorem State.setPc_mode (s : State) (w : Word) : (s.setPc w).mode = s.mode := rfl
@[simp] theorem State.setPc_keys (s : State) (w : Word) : (s.setPc w).keys = s.keys := rfl
@[simp] theorem State.setPc_elapsed (s : State) (w : Word) : (s.setPc w).elapsed = s.elapsed := rfl
@[simp] theorem State.setPc_rnd (s : State) (w : Word) : (s.setPc w).rnd = s.rnd := rfl
@[simp] theorem State.setPc_result (s : State) (w : Word) : (s.setPc w).result = s.result := rfl
@[simp] theorem State.setPc_tone (s : State) (w : Word) : (s.setPc w).tone = s.tone := rfl
@[simp] theorem State.setPc_feed (s : State) (w : Word) : (s.setPc w).feed = s.feed := rfl
@[simp] theorem State.setPc_cycles (s : State) (w : Word) : (s.setPc w).cycles = s.cycles := rfl

/-! ### advance -/

@[simp] theorem State.advance_mem (s : State) : s.advance.mem = s.mem := rfl
@[simp] theorem State.advance_v (s : State) : s.advance.v = s.v := rfl
@[simp] theorem State.advance_index (s : State) : s.advance.index = s.index := rfl
@[simp] theorem State.advance_pc (s : State) : s.advance.pc = s.pc + 2 := rfl
@[simp] theorem State.advance_stack (s : State) : s.advance.stack = s.stack := rfl
@[simp] theorem State.advance_sp (s : State) : s.advance.sp = s.sp := rfl
@[simp] theorem State.advance_delay (s : State) : s.advance.delay = s.delay := rfl
@[simp] theorem State.advance_sound (s : State) : s.advance.sound = s.sound := rfl
@[simp] theorem State.advance_acc (s : State) : s.advance.acc = s.acc := rfl
@[simp] theorem State.advance_fb (s : State) : s.advance.fb = s.fb := rfl
@[simp] theorem State.advance_dirty (s : State) : s.advance.dirty = s.dirty := rfl
@[simp] theorem State.advance_mode (s : State) : s.advance.mode = s.mode := rfl
@[simp] theorem State.advance_keys (s : State) : s.advance.keys = s.keys := rfl
@[simp] theorem State.advance_elapsed (s : State) : s.advance.elapsed = s.elapsed := rfl
@[simp] theorem State.advance_rnd (s : State) : s.advance.rnd = s.rnd := rfl
@[simp] theorem State.advance_result (s : State) : s.advance.result = s.result := rfl
@[simp] theorem State.advance_tone (s : State) : s.advance.tone = s.tone := rfl
@[simp] theorem State.advance_feed (s : State) : s.advance.feed = s.feed := rfl
@[simp] theorem State.advance_cycles (s : State) : s.advance.cycles = s.cycles := rfl

/-! ### skipIf -/

@[simp] theorem State.skipIf_mem (s : State) (c : Bool) : (s.skipIf c).mem = s.mem := rfl
@[simp] theorem State.skipIf_v (s : State) (c : Bool) : (s.skipIf c).v = s.v := rfl
@[simp] theorem State.skipIf_index (s : State) (c : Bool) : (s.skipIf c).index = s.index := rfl
@[simp] theorem State.skipIf_pc (s : State) (c : Bool) : (s.skipIf c).pc = if c then s.pc + 4 else s.pc + 2 := rfl
@[simp] theorem State.skipIf_stack (s : State) (c : Bool) : (s.skipIf c).stack = s.stack := rfl
@[simp] theorem State.skipIf_sp (s : State) (c : Bool) : (s.skipIf c).sp = s.sp := rfl
@[simp] theorem State.skipIf_delay (s : State) (c : Bool) : (s.skipIf c).delay = s.delay := rfl
@[simp] theorem State.skipIf_sound (s : State) (c : Bool) : (s.skipIf c).sound = s.sound := rfl
@[simp] theorem State.skipIf_acc (s : State) (c : Bool) : (s.skipIf c).acc = s.acc := rfl
@[simp] theorem State.skipIf_fb (s : State) (c : Bool) : (s.skipIf c).fb = s.fb := rfl
@[simp] theorem State.skipIf_dirty (s : State) (c : Bool) : (s.skipIf c).dirty = s.dirty := rfl
@[simp] theorem State.skipIf_mode (s : State) (c : Bool) : (s.skipIf c).mode = s.mode := rfl
@[simp] theorem State.skipIf_keys (s : State) (c : Bool) : (s.skipIf c).keys = s.keys := rfl
@[simp] theorem State.skipIf_elapsed (s : State) (c : Bool) : (s.skipIf c).elapsed = s.elapsed := rfl
@[simp] theorem State.skipIf_rnd (s : State) (c : Bool) : (s.skipIf c).rnd = s.rnd := rfl
@[simp] theorem State.skipIf_result (s : State) (c : Bool) : (s.skipIf c).result = s.result := rfl
@[simp] theorem State.skipIf_tone (s : State) (c : Bool) : (s.skipIf c).tone = s.tone := rfl
@[simp] theorem State.skipIf_feed (s : State) (c : Bool) : (s.skipIf c).feed = s.feed := rfl
@[simp] theorem State.skipIf_cycles (s : State) (c : Bool) : (s.skipIf c).cycles = s.cycles := rfl

/-! ### raise -/

@[simp] theorem State.raise_mem (s : State) (f : Fault) : (s.raise f).mem = s.mem := rfl
@[simp] theorem State.raise_v (s : State) (f : Fault) : (s.raise f).v = s.v := rfl
@[simp] theorem State.raise_index (s : State) (f : Fault) : (s.raise f).index = s.index := rfl
@[simp] theorem State.raise_pc (s : State) (f : Fault) : (s.raise f).pc = s.pc := rfl
@[simp] theorem State.raise_stack (s : State) (f : Fault) : (s.raise f).stack = s.stack := rfl
@[simp] theorem State.raise_sp (s : State) (f : Fault) : (s.raise f).sp = s.sp := rfl
@[simp] theorem State.raise_delay (s : State) (f : Fault) : (s.raise f).delay = s.delay := rfl
@[simp] theorem State.raise_sound (s : State) (f : Fault) : (s.raise f).sound = s.sound := rfl
@[simp] theorem State.raise_acc (s : State) (f : Fault) : (s.raise f).acc = s.acc := rfl
@[simp] theorem State.raise_fb (s : State) (f : Fault) : (s.raise f).fb = s.fb := rfl
@[simp] theorem State.raise_dirty (s : State) (f : Fault) : (s.raise f).dirty = s.dirty := rfl
@[simp] theorem State.raise_mode (s : State) (f : Fault) : (s.raise f).mode = s.mode := rfl
@[simp] theorem State.raise_keys (s : State) (f : Fault) : (s.raise f).keys = s.keys := rfl
@[simp] theorem State.raise_elapsed (s : State) (f : Fault) : (s.raise f).elapsed = s.elapsed := rfl
@[simp] theorem State.raise_rnd (s : State) (f : Fault) : (s.raise f).rnd = s.rnd := rfl
@[simp] theorem State.raise_result (s : State) (f : Fault) : (s.raise f).result = .fault f := rfl
@[simp] theorem State.raise_tone (s : State) (f : Fault) : (s.raise f).tone = s.tone := rfl
@[simp] theorem State.raise_feed (s : State) (f : Fault) : (s.raise f).feed = s.feed := rfl
@[simp] theorem State.raise_cycles (s : State) (f : Fault) : (s.raise f).cycles = s.cycles := rfl

/-! ### timerTick -/

@[simp] theorem State.timerTick_mem (s : State) : s.timerTick.mem = s.mem := rfl
@[simp] theorem State.timerTick_v (s : State) : s.timerTick.v = s.v := rfl
@[simp] theorem State.timerTick_index (s : State) : s.timerTick.index = s.index := rfl
@[simp] theorem State.timerTick_pc (s : State) : s.timerTick.pc = s.pc := rfl
@[simp] theorem State.timerTick_stack (s : State) : s.timerTick.stack = s.stack := rfl
@[simp] theorem State.timerTick_sp (s : State) : s.timerTick.sp = s.sp := rfl
@[simp] theorem State.timerTick_delay (s : State) : s.timerTick.delay = timerAfter s.tickFires s.delay := rfl
@[simp] theorem State.timerTick_sound (s : State) : s.timerTick.sound = timerAfter s.tickFires s.sound := rfl
@[simp] theorem State.timerTick_acc (s : State) : s.timerTick.acc = if s.tickFires then Time.zero else s.acc.add s.elapsed := rfl
@[simp] theorem State.timerTick_fb (s : State) : s.timerTick.fb = s.fb := rfl
@[simp] theorem State.timerTick_dirty (s : State) : s.timerTick.dirty = s.dirty := rfl
@[simp] theorem State.timerTick_mode (s : State) : s.timerTick.mode = s.mode := rfl
@[simp] theorem State.timerTick_keys (s : State) : s.timerTick.keys = s.keys := rfl
@[simp] theorem State.timerTick_elapsed (s : State) : s.timerTick.elapsed = s.elapsed := rfl
@[simp] theorem State.timerTick_rnd (s : State) : s.timerTick.rnd = s.rnd := rfl
@[simp] theorem State.timerTick_result (s : State) : s.timerTick.result = s.result := rfl
@[simp] theorem State.timerTick_tone (s : State) : s.timerTick.tone = (s.tickFires && s.sound != 0) := rfl
@[simp] theorem State.timerTick_feed (s : State) : s.timerTick.feed = s.feed := rfl
@[simp] theorem State.timerTick_cycles (s : State) : s.timerTick.cycles = s.cycles := rfl

/-! ### deliver -/

@[simp] theorem State.deliver_mem (s : State) : s.deliver.mem = s.mem := rfl
@[simp] theorem State.deliver_v (s : State) : s.deliver.v = s.v := rfl
@[simp] theorem State.deliver_index (s : State) : s.deliver.index = s.index := rfl
@[simp] theorem State.deliver_pc (s : State) : s.deliver.pc = s.pc := rfl
@[simp] theorem State.deliver_stack (s : State) : s.deliver.stack = s.stack := rfl
@[simp] theorem State.deliver_sp (s : State) : s.deliver.sp = s.sp := rfl
@[simp] theorem State.deliver_delay (s : State) : s.deliver.delay = s.delay := rfl
@[simp] theorem State.deliver_sound (s : State) : s.deliver.sound = s.sound := rfl
@[simp] theorem State.deliver_acc (s : State) : s.deliver.acc = s.acc := rfl
@[simp] theorem State.deliver_fb (s : State) : s.deliver.fb = s.fb := rfl
@[simp] theorem State.deliver_dirty (s : State) : s.deliver.dirty = s.dirty := rfl
@[simp] theorem State.deliver_mode (s : State) : s.deliver.mode = s.mode := rfl
@[simp] theorem State.deliver_keys (s : State) : s.deliver.keys = s.nextInput.keyEvents.foldl KeyEvent.apply s.keys := rfl
@[simp] theorem State.deliver_elapsed (s : State) : s.deliver.elapsed = s.nextInput.elapsed := rfl
@[simp] theorem State.deliver_rnd (s : State) : s.deliver.rnd = s.nextInput.rnd := rfl
@[simp] theorem State.deliver_result (s : State) : s.deliver.result = .ok := rfl
@[simp] theorem State.deliver_tone (s : State) : s.deliver.tone = false := rfl
@[simp] theorem State.deliver_feed (s : State) : s.deliver.feed = s.feed.tail := rfl
@[simp] theorem State.deliver_cycles (s : State) : s.deliver.cycles = s.cycles + 1 := rfl

/-! ### Reading a register after an update -/

theorem State.reg_setReg (s : State) (x r : RegId) (b : Byte) :
    (s.setReg x b).reg r = if r = x then b else s.reg r := by
  unfold State.reg State.setReg
  by_cases h : r = x
  · subst h; simp
  · have hne : x.toNat ≠ r.toNat := fun e => h (BitVec.eq_of_toNat_eq e.symm)
    simp [Vector.getElem_set_ne, hne, h]

@[simp] theorem State.reg_setReg_same (s : State) (x : RegId) (b : Byte) : (s.setReg x b).reg x = b := by
  simp [State.reg_setReg]

theorem State.reg_setReg_ne (s : State) {x r : RegId} (b : Byte) (h : r ≠ x) : (s.setReg x b).reg r = s.reg r := by
  simp [State.reg_setReg, h]

theorem State.reg_setFlag (s : State) (r : RegId) (b : Byte) :
    (s.setFlag b).reg r = if r = flagReg then b else s.reg r := State.reg_setReg s flagReg r b

/-- Two states with the same registers read the same. -/
theorem State.reg_congr {s t : State} (h : t.v = s.v) (r : RegId) : t.reg r = s.reg r := by
  unfold State.reg; rw [h]

@[simp] theorem State.reg_setIndex (s : State) (w : Word) (r : RegId) : (s.setIndex w).reg r = s.reg r := rfl
@[simp] theorem State.reg_setPc (s : State) (w : Word) (r : RegId) : (s.setPc w).reg r = s.reg r := rfl
@[simp] theorem State.reg_advance (s : State) (r : RegId) : s.advance.reg r = s.reg r := rfl
@[simp] theorem State.reg_skipIf (s : State) (c : Bool) (r : RegId) : (s.skipIf c).reg r = s.reg r := rfl
@[simp] theorem State.reg_raise (s : State) (f : Fault) (r : RegId) : (s.raise f).reg r = s.reg r := rfl
@[simp] theorem State.reg_timerTick (s : State) (r : RegId) : s.timerTick.reg r = s.reg r := rfl
@[simp] theorem State.reg_deliver (s : State) (r : RegId) : s.deliver.reg r = s.reg r := rfl


end Sys2Proof.Machine
end

