-- ==== Sys2Proof/Laws/Ops.lean ====
section
/-! SUPPORT. For each shared operation, once, everything it can do. -/

namespace Sys2Proof.Machine

/-- An access has no fault exactly when it is empty or its highest address is at most 0xFFF (R45). -/
theorem accessFault_eq_none_iff (a n : Nat) : accessFault a n = none ↔ n = 0 ∨ a + n ≤ memSize := by
  unfold accessFault memSize
  split <;> simp <;> omega

theorem accessFault_of_gt {a n : Nat} (hn : 1 ≤ n) (h : a + n - 1 > 0xFFF) :
    accessFault a n = some (.addressOutOfRange (max a 0x1000)) := by
  unfold accessFault; rw [if_pos ⟨hn, h⟩]

/-- A block read answers its bytes or the fault of the access. -/
theorem State.readBlock_ok (s : State) {a n : Nat} (h : accessFault a n = none) :
    s.readBlock a n = .ok (s.mem.readBytes a n) := by
  unfold State.readBlock; rw [h]

theorem State.readBlock_error (s : State) {a n : Nat} {f : Fault} (h : accessFault a n = some f) :
    s.readBlock a n = .error f := by
  unfold State.readBlock; rw [h]

/-- A block write changes memory at its bytes only, or answers the fault of the access. -/
theorem State.writeBlock_ok (s : State) {a : Nat} {bytes : List Byte} (h : accessFault a bytes.length = none) :
    s.writeBlock a bytes = .ok { s with mem := s.mem.writeBytes a bytes } := by
  unfold State.writeBlock; rw [h]

theorem State.writeBlock_error (s : State) {a : Nat} {bytes : List Byte} {f : Fault}
    (h : accessFault a bytes.length = some f) : s.writeBlock a bytes = .error f := by
  unfold State.writeBlock; rw [h]

/-- Everything a block write can do. -/
theorem State.writeBlock_cases (s : State) (a : Nat) (bytes : List Byte) :
    (∃ f, accessFault a bytes.length = some f ∧ s.writeBlock a bytes = .error f) ∨
    (accessFault a bytes.length = none ∧ s.writeBlock a bytes = .ok { s with mem := s.mem.writeBytes a bytes }) := by
  cases h : accessFault a bytes.length with
  | none => exact .inr ⟨rfl, s.writeBlock_ok h⟩
  | some f => exact .inl ⟨f, rfl, s.writeBlock_error h⟩

/-- Everything a block read can do. -/
theorem State.readBlock_cases (s : State) (a n : Nat) :
    (∃ f, accessFault a n = some f ∧ s.readBlock a n = .error f) ∨
    (accessFault a n = none ∧ s.readBlock a n = .ok (s.mem.readBytes a n)) := by
  cases h : accessFault a n with
  | none => exact .inr ⟨rfl, s.readBlock_ok h⟩
  | some f => exact .inl ⟨f, rfl, s.readBlock_error h⟩

/-- Everything a fetch can do (R82). -/
theorem State.fetchWord_cases (s : State) :
    (s.pc.toNat + 1 > 0xFFF ∧ s.fetchWord = .error (.addressOutOfRange (max s.pc.toNat 0x1000))) ∨
    (s.pc.toNat + 1 ≤ 0xFFF ∧ s.fetchWord = .ok (wordOfBytes (s.mem.read s.pc.toNat) (s.mem.read (s.pc.toNat + 1)))) := by
  unfold State.fetchWord accessFault
  split <;> split at * <;> simp_all

/-- A fetch reads `pc` and memory and nothing else. -/
theorem State.fetchWord_congr {s t : State} (hm : t.mem = s.mem) (hp : t.pc = s.pc) : t.fetchWord = s.fetchWord := by
  unfold State.fetchWord; rw [hm, hp]

/-- So does fetching and decoding. -/
theorem State.fetchInstr_congr {s t : State} (hm : t.mem = s.mem) (hp : t.pc = s.pc) : t.fetchInstr = s.fetchInstr := by
  unfold State.fetchInstr; rw [State.fetchWord_congr hm hp]

/-- An instruction is fetched only where both its bytes exist. -/
theorem State.pc_of_fetchInstr_ok {s : State} {i : Instr} (h : s.fetchInstr = .ok i) : s.pc.toNat + 1 ≤ 0xFFF := by
  rcases s.fetchWord_cases with ⟨_, e⟩ | ⟨hp, _⟩
  · simp [State.fetchInstr, e] at h
  · exact hp

/-- Everything a push can do (R16). -/
theorem State.push_cases (s : State) (w : Word) :
    (s.sp.val = 16 ∧ s.push w = none) ∨
    (∃ h : s.sp.val < 16, s.push w = some { s with stack := s.stack.set s.sp.val w, sp := ⟨s.sp.val + 1, Nat.succ_lt_succ h⟩ }) := by
  unfold State.push
  by_cases h : s.sp.val < 16
  · exact .inr ⟨h, by rw [dif_pos h]⟩
  · exact .inl ⟨by omega, by rw [dif_neg h]⟩

/-- Everything a pop can do (R16). -/
theorem State.pop_cases (s : State) :
    (s.sp.val = 0 ∧ s.pop = none) ∨
    (∃ h : 0 < s.sp.val, s.pop = some (s.stack[s.sp.val - 1]'(by omega), { s with sp := ⟨s.sp.val - 1, by omega⟩ })) := by
  unfold State.pop
  by_cases h : 0 < s.sp.val
  · exact .inr ⟨h, by rw [dif_pos h]⟩
  · exact .inl ⟨by omega, by rw [dif_neg h]⟩

/-- Everything reading the key a register names can do (R197). -/
theorem State.keyOf_cases (s : State) (x : RegId) :
    ((s.reg x).toNat > 15 ∧ s.keyOf x = .error (.keyIndexOutOfRange (s.reg x))) ∨
    (∃ h : (s.reg x).toNat < 16, s.keyOf x = .ok s.keys[(s.reg x).toNat]) := by
  unfold State.keyOf
  by_cases h : (s.reg x).toNat < 16
  · exact .inr ⟨h, by rw [dif_pos h]⟩
  · exact .inl ⟨by omega, by rw [dif_neg h]⟩

/-- Everything a key poll can do (R193). -/
theorem State.pollKey_cases (s : State) (t : RegId) :
    (highestPressed s.keys = none ∧ s.pollKey t = s) ∨
    (∃ k, highestPressed s.keys = some k ∧
      s.pollKey t = { (s.setReg t (k.setWidth 8)).advance with mode := .running }) := by
  unfold State.pollKey
  cases h : highestPressed s.keys with
  | none => exact .inl ⟨rfl, rfl⟩
  | some k => exact .inr ⟨k, rfl, rfl⟩

/-- What a register reads as after a flag-defining instruction (R120). -/
theorem State.reg_flagThenResult (s : State) (x r : RegId) (flag result : State → Byte) :
    (s.flagThenResult x flag result).reg r =
      if r = x then result (s.setFlag (flag s)) else if r = flagReg then flag s else s.reg r := by
  simp [State.flagThenResult, State.reg_setReg, State.reg_setFlag]

/-- A flag-defining instruction changes registers and `pc` only. -/
theorem State.flagThenResult_eq (s : State) (x : RegId) (flag result : State → Byte) :
    ∃ v, s.flagThenResult x flag result = { s with v := v, pc := s.pc + 2 } := ⟨_, rfl⟩

/-- Loading registers from a list changes registers only. -/
theorem State.setRegs_eq (bs : List Byte) : ∀ (s : State) (k : Nat), ∃ v, s.setRegs k bs = { s with v := v } := by
  induction bs with
  | nil => intro s k; exact ⟨s.v, rfl⟩
  | cons b bs ih =>
    intro s k
    obtain ⟨v, hv⟩ := ih (s.setReg (BitVec.ofNat 4 k) b) (k + 1)
    exact ⟨v, by rw [State.setRegs, hv]; rfl⟩

/-- What a register reads as after registers were loaded from a list. -/
theorem State.reg_setRegs (bs : List Byte) : ∀ (s : State) (k : Nat) (r : RegId), k + bs.length ≤ 16 →
    (s.setRegs k bs).reg r =
      if h : k ≤ r.toNat ∧ r.toNat < k + bs.length then bs[r.toNat - k]'(by omega) else s.reg r := by
  induction bs with
  | nil =>
    intro s k r _
    rw [dif_neg (by rw [List.length_nil]; omega)]
    rfl
  | cons b bs ih =>
    intro s k r hk
    simp only [List.length_cons] at hk
    have hkn : (BitVec.ofNat 4 k).toNat = k := by rw [BitVec.toNat_ofNat]; omega
    rw [State.setRegs, ih _ _ _ (by omega)]
    simp only [List.length_cons]
    by_cases h0 : r.toNat = k
    · have hr : r = BitVec.ofNat 4 k := BitVec.eq_of_toNat_eq (by rw [h0, hkn])
      rw [dif_neg (by omega), dif_pos (by omega), State.reg_setReg, if_pos hr]
      simp only [h0, Nat.sub_self, List.getElem_cons_zero]
    · have hr : r ≠ BitVec.ofNat 4 k := fun e => h0 (by rw [e, hkn])
      by_cases h1 : k + 1 ≤ r.toNat ∧ r.toNat < k + 1 + bs.length
      · rw [dif_pos h1, dif_pos (by omega), List.getElem_cons, dif_neg (by omega)]
        congr 1
      · rw [dif_neg h1, dif_neg (by omega), State.reg_setReg_ne _ _ hr]

@[simp] theorem State.regsUpTo_length (s : State) (x : RegId) : (s.regsUpTo x).length = x.toNat + 1 := by
  simp [State.regsUpTo]

theorem State.regsUpTo_getElem (s : State) (x : RegId) (k : Nat) (h : k < (s.regsUpTo x).length) :
    (s.regsUpTo x)[k] = s.reg (BitVec.ofNat 4 k) := by
  simp [State.regsUpTo]

@[simp] theorem decimalDigits_length (b : Byte) : (decimalDigits b).length = 3 := rfl

end Sys2Proof.Machine
end

