-- ==== Sys2Proof/Laws/Items.lean ====
section
/-! SUPPORT. When two states agree on an item: from equal fields, and after the operations every cycle runs. -/

namespace Sys2Proof.Machine

theorem Item.same_refl (s : State) (it : Item) : it.same s s := by cases it <;> exact rfl

theorem Item.same_trans {s t u : State} {it : Item} (h : it.same s t) (h' : it.same t u) : it.same s u := by
  cases it <;> exact Eq.trans h' h

/-- States with equal machine fields agree on every item but those any cycle may change. -/
theorem Item.same_of_fields {s t : State} (hmem : t.mem = s.mem) (hv : t.v = s.v) (hindex : t.index = s.index)
    (hpc : t.pc = s.pc) (hstack : t.stack = s.stack) (hsp : t.sp = s.sp) (hfb : t.fb = s.fb) (hdirty : t.dirty = s.dirty)
    (hmode : t.mode = s.mode) (it : Item) (hit : it.ofEveryCycle = false) : it.same s t := by
  cases it <;> simp only [Item.ofEveryCycle, Bool.true_eq_false] at hit <;> simp only [Item.same]
  · rw [hmem]
  · exact State.reg_congr hv _
  · exact hindex
  · exact hpc
  · rw [hstack]
  · exact hsp
  · rw [hfb]
  · exact hdirty
  · exact hmode

/-- Taking the inputs of a cycle and the timer tick change only items any cycle may change. -/
theorem Item.same_deliver (s : State) {it : Item} (hit : it.ofEveryCycle = false) : it.same s s.deliver :=
  Item.same_of_fields (s := s) (t := s.deliver) rfl rfl rfl rfl rfl rfl rfl rfl rfl it hit

theorem Item.same_timerTick (s : State) {it : Item} (hit : it.ofEveryCycle = false) : it.same s s.timerTick :=
  Item.same_of_fields (s := s) (t := s.timerTick) rfl rfl rfl rfl rfl rfl rfl rfl rfl it hit

/-- Taking a fault changes the result alone. -/
theorem Item.same_raise (s : State) (f : Fault) {it : Item} (hit : it ≠ .result) : it.same s (s.raise f) := by
  cases it <;> first | exact absurd rfl hit | exact rfl

end Sys2Proof.Machine
end

