-- ==== Sys2Proof/Laws/PerInstr.lean ====
section
/-! SUPPORT. Facts about the instructions as syntax, one lemma per constructor. Family Assembly: the assembler line of an
instruction is well-formed and assembles to that instruction (R72). -/

namespace Sys2Proof.Laws.Assembly

/-- The line of an instruction passes every check, and assembling it gives the instruction back. -/
def Statement (i : Instr) : Prop := i.WellFormed ∧ i.raw.assemble = some i

/-- Both halves follow from the checks and the building of the line. -/
theorem of_build {i : Instr} (hw : i.raw.wf = true) (hb : i.raw.build = some i) : Statement i :=
  ⟨hw, by unfold RawInstr.assemble; rw [if_pos hw, hb]⟩

theorem cls : Statement .cls := of_build rfl rfl

theorem ret : Statement .ret := of_build rfl rfl

theorem jp (nnn : Addr12) : Statement (.jp nnn) :=
  of_build
    (by simp [RawInstr.wf, RawInstr.countOk, RawInstr.rangesOk, RawInstr.fullOperands, Instr.raw, Mnemonic.operandKinds,
      Mnemonic.secondOptional, OperandKind.bound, nnn.isLt])
    (by simp [RawInstr.build, RawInstr.fullOperands, Instr.raw, Mnemonic.secondOptional])

theorem call (nnn : Addr12) : Statement (.call nnn) :=
  of_build
    (by simp [RawInstr.wf, RawInstr.countOk, RawInstr.rangesOk, RawInstr.fullOperands, Instr.raw, Mnemonic.operandKinds,
      Mnemonic.secondOptional, OperandKind.bound, nnn.isLt])
    (by simp [RawInstr.build, RawInstr.fullOperands, Instr.raw, Mnemonic.secondOptional])

theorem sei (x : RegId) (nn : Byte) : Statement (.sei x nn) :=
  of_build
    (by simp [RawInstr.wf, RawInstr.countOk, RawInstr.rangesOk, RawInstr.fullOperands, Instr.raw, Mnemonic.operandKinds,
      Mnemonic.secondOptional, OperandKind.bound, x.isLt, nn.isLt])
    (by simp [RawInstr.build, RawInstr.fullOperands, Instr.raw, Mnemonic.secondOptional])

theorem snei (x : RegId) (nn : Byte) : Statement (.snei x nn) :=
  of_build
    (by simp [RawInstr.wf, RawInstr.countOk, RawInstr.rangesOk, RawInstr.fullOperands, Instr.raw, Mnemonic.operandKinds,
      Mnemonic.secondOptional, OperandKind.bound, x.isLt, nn.isLt])
    (by simp [RawInstr.build, RawInstr.fullOperands, Instr.raw, Mnemonic.secondOptional])

theorem se (x : RegId) (y : RegId) : Statement (.se x y) :=
  of_build
    (by simp [RawInstr.wf, RawInstr.countOk, RawInstr.rangesOk, RawInstr.fullOperands, Instr.raw, Mnemonic.operandKinds,
      Mnemonic.secondOptional, OperandKind.bound, x.isLt, y.isLt])
    (by simp [RawInstr.build, RawInstr.fullOperands, Instr.raw, Mnemonic.secondOptional])

theorem ldi (x : RegId) (nn : Byte) : Statement (.ldi x nn) :=
  of_build
    (by simp [RawInstr.wf, RawInstr.countOk, RawInstr.rangesOk, RawInstr.fullOperands, Instr.raw, Mnemonic.operandKinds,
      Mnemonic.secondOptional, OperandKind.bound, x.isLt, nn.isLt])
    (by simp [RawInstr.build, RawInstr.fullOperands, Instr.raw, Mnemonic.secondOptional])

theorem addi (x : RegId) (nn : Byte) : Statement (.addi x nn) :=
  of_build
    (by simp [RawInstr.wf, RawInstr.countOk, RawInstr.rangesOk, RawInstr.fullOperands, Instr.raw, Mnemonic.operandKinds,
      Mnemonic.secondOptional, OperandKind.bound, x.isLt, nn.isLt])
    (by simp [RawInstr.build, RawInstr.fullOperands, Instr.raw, Mnemonic.secondOptional])

theorem mov (x : RegId) (y : RegId) : Statement (.mov x y) :=
  of_build
    (by simp [RawInstr.wf, RawInstr.countOk, RawInstr.rangesOk, RawInstr.fullOperands, Instr.raw, Mnemonic.operandKinds,
      Mnemonic.secondOptional, OperandKind.bound, x.isLt, y.isLt])
    (by simp [RawInstr.build, RawInstr.fullOperands, Instr.raw, Mnemonic.secondOptional])

theorem or (x : RegId) (y : RegId) : Statement (.or x y) :=
  of_build
    (by simp [RawInstr.wf, RawInstr.countOk, RawInstr.rangesOk, RawInstr.fullOperands, Instr.raw, Mnemonic.operandKinds,
      Mnemonic.secondOptional, OperandKind.bound, x.isLt, y.isLt])
    (by simp [RawInstr.build, RawInstr.fullOperands, Instr.raw, Mnemonic.secondOptional])

theorem and (x : RegId) (y : RegId) : Statement (.and x y) :=
  of_build
    (by simp [RawInstr.wf, RawInstr.countOk, RawInstr.rangesOk, RawInstr.fullOperands, Instr.raw, Mnemonic.operandKinds,
      Mnemonic.secondOptional, OperandKind.bound, x.isLt, y.isLt])
    (by simp [RawInstr.build, RawInstr.fullOperands, Instr.raw, Mnemonic.secondOptional])

theorem xor (x : RegId) (y : RegId) : Statement (.xor x y) :=
  of_build
    (by simp [RawInstr.wf, RawInstr.countOk, RawInstr.rangesOk, RawInstr.fullOperands, Instr.raw, Mnemonic.operandKinds,
      Mnemonic.secondOptional, OperandKind.bound, x.isLt, y.isLt])
    (by simp [RawInstr.build, RawInstr.fullOperands, Instr.raw, Mnemonic.secondOptional])

theorem add (x : RegId) (y : RegId) : Statement (.add x y) :=
  of_build
    (by simp [RawInstr.wf, RawInstr.countOk, RawInstr.rangesOk, RawInstr.fullOperands, Instr.raw, Mnemonic.operandKinds,
      Mnemonic.secondOptional, OperandKind.bound, x.isLt, y.isLt])
    (by simp [RawInstr.build, RawInstr.fullOperands, Instr.raw, Mnemonic.secondOptional])

theorem sub (x : RegId) (y : RegId) : Statement (.sub x y) :=
  of_build
    (by simp [RawInstr.wf, RawInstr.countOk, RawInstr.rangesOk, RawInstr.fullOperands, Instr.raw, Mnemonic.operandKinds,
      Mnemonic.secondOptional, OperandKind.bound, x.isLt, y.isLt])
    (by simp [RawInstr.build, RawInstr.fullOperands, Instr.raw, Mnemonic.secondOptional])

theorem shr (x : RegId) (y : RegId) : Statement (.shr x y) :=
  of_build
    (by simp [RawInstr.wf, RawInstr.countOk, RawInstr.rangesOk, RawInstr.fullOperands, Instr.raw, Mnemonic.operandKinds,
      Mnemonic.secondOptional, OperandKind.bound, x.isLt, y.isLt])
    (by simp [RawInstr.build, RawInstr.fullOperands, Instr.raw, Mnemonic.secondOptional])

theorem subn (x : RegId) (y : RegId) : Statement (.subn x y) :=
  of_build
    (by simp [RawInstr.wf, RawInstr.countOk, RawInstr.rangesOk, RawInstr.fullOperands, Instr.raw, Mnemonic.operandKinds,
      Mnemonic.secondOptional, OperandKind.bound, x.isLt, y.isLt])
    (by simp [RawInstr.build, RawInstr.fullOperands, Instr.raw, Mnemonic.secondOptional])

theorem shl (x : RegId) (y : RegId) : Statement (.shl x y) :=
  of_build
    (by simp [RawInstr.wf, RawInstr.countOk, RawInstr.rangesOk, RawInstr.fullOperands, Instr.raw, Mnemonic.operandKinds,
      Mnemonic.secondOptional, OperandKind.bound, x.isLt, y.isLt])
    (by simp [RawInstr.build, RawInstr.fullOperands, Instr.raw, Mnemonic.secondOptional])

theorem sne (x : RegId) (y : RegId) : Statement (.sne x y) :=
  of_build
    (by simp [RawInstr.wf, RawInstr.countOk, RawInstr.rangesOk, RawInstr.fullOperands, Instr.raw, Mnemonic.operandKinds,
      Mnemonic.secondOptional, OperandKind.bound, x.isLt, y.isLt])
    (by simp [RawInstr.build, RawInstr.fullOperands, Instr.raw, Mnemonic.secondOptional])

theorem ldx (nnn : Addr12) : Statement (.ldx nnn) :=
  of_build
    (by simp [RawInstr.wf, RawInstr.countOk, RawInstr.rangesOk, RawInstr.fullOperands, Instr.raw, Mnemonic.operandKinds,
      Mnemonic.secondOptional, OperandKind.bound, nnn.isLt])
    (by simp [RawInstr.build, RawInstr.fullOperands, Instr.raw, Mnemonic.secondOptional])

theorem jpv0 (nnn : Addr12) : Statement (.jpv0 nnn) :=
  of_build
    (by simp [RawInstr.wf, RawInstr.countOk, RawInstr.rangesOk, RawInstr.fullOperands, Instr.raw, Mnemonic.operandKinds,
      Mnemonic.secondOptional, OperandKind.bound, nnn.isLt])
    (by simp [RawInstr.build, RawInstr.fullOperands, Instr.raw, Mnemonic.secondOptional])

theorem rnd (x : RegId) (nn : Byte) : Statement (.rnd x nn) :=
  of_build
    (by simp [RawInstr.wf, RawInstr.countOk, RawInstr.rangesOk, RawInstr.fullOperands, Instr.raw, Mnemonic.operandKinds,
      Mnemonic.secondOptional, OperandKind.bound, x.isLt, nn.isLt])
    (by simp [RawInstr.build, RawInstr.fullOperands, Instr.raw, Mnemonic.secondOptional])

theorem drw (x : RegId) (y : RegId) (n : Nibble) : Statement (.drw x y n) :=
  of_build
    (by simp [RawInstr.wf, RawInstr.countOk, RawInstr.rangesOk, RawInstr.fullOperands, Instr.raw, Mnemonic.operandKinds,
      Mnemonic.secondOptional, OperandKind.bound, x.isLt, y.isLt, n.isLt])
    (by simp [RawInstr.build, RawInstr.fullOperands, Instr.raw, Mnemonic.secondOptional])

theorem skp (x : RegId) : Statement (.skp x) :=
  of_build
    (by simp [RawInstr.wf, RawInstr.countOk, RawInstr.rangesOk, RawInstr.fullOperands, Instr.raw, Mnemonic.operandKinds,
      Mnemonic.secondOptional, OperandKind.bound, x.isLt])
    (by simp [RawInstr.build, RawInstr.fullOperands, Instr.raw, Mnemonic.secondOptional])

theorem sknp (x : RegId) : Statement (.sknp x) :=
  of_build
    (by simp [RawInstr.wf, RawInstr.countOk, RawInstr.rangesOk, RawInstr.fullOperands, Instr.raw, Mnemonic.operandKinds,
      Mnemonic.secondOptional, OperandKind.bound, x.isLt])
    (by simp [RawInstr.build, RawInstr.fullOperands, Instr.raw, Mnemonic.secondOptional])

theorem gdt (x : RegId) : Statement (.gdt x) :=
  of_build
    (by simp [RawInstr.wf, RawInstr.countOk, RawInstr.rangesOk, RawInstr.fullOperands, Instr.raw, Mnemonic.operandKinds,
      Mnemonic.secondOptional, OperandKind.bound, x.isLt])
    (by simp [RawInstr.build, RawInstr.fullOperands, Instr.raw, Mnemonic.secondOptional])

theorem wkey (x : RegId) : Statement (.wkey x) :=
  of_build
    (by simp [RawInstr.wf, RawInstr.countOk, RawInstr.rangesOk, RawInstr.fullOperands, Instr.raw, Mnemonic.operandKinds,
      Mnemonic.secondOptional, OperandKind.bound, x.isLt])
    (by simp [RawInstr.build, RawInstr.fullOperands, Instr.raw, Mnemonic.secondOptional])

theorem sdt (x : RegId) : Statement (.sdt x) :=
  of_build
    (by simp [RawInstr.wf, RawInstr.countOk, RawInstr.rangesOk, RawInstr.fullOperands, Instr.raw, Mnemonic.operandKinds,
      Mnemonic.secondOptional, OperandKind.bound, x.isLt])
    (by simp [RawInstr.build, RawInstr.fullOperands, Instr.raw, Mnemonic.secondOptional])

theorem sst (x : RegId) : Statement (.sst x) :=
  of_build
    (by simp [RawInstr.wf, RawInstr.countOk, RawInstr.rangesOk, RawInstr.fullOperands, Instr.raw, Mnemonic.operandKinds,
      Mnemonic.secondOptional, OperandKind.bound, x.isLt])
    (by simp [RawInstr.build, RawInstr.fullOperands, Instr.raw, Mnemonic.secondOptional])

theorem addx (x : RegId) : Statement (.addx x) :=
  of_build
    (by simp [RawInstr.wf, RawInstr.countOk, RawInstr.rangesOk, RawInstr.fullOperands, Instr.raw, Mnemonic.operandKinds,
      Mnemonic.secondOptional, OperandKind.bound, x.isLt])
    (by simp [RawInstr.build, RawInstr.fullOperands, Instr.raw, Mnemonic.secondOptional])

theorem font (x : RegId) : Statement (.font x) :=
  of_build
    (by simp [RawInstr.wf, RawInstr.countOk, RawInstr.rangesOk, RawInstr.fullOperands, Instr.raw, Mnemonic.operandKinds,
      Mnemonic.secondOptional, OperandKind.bound, x.isLt])
    (by simp [RawInstr.build, RawInstr.fullOperands, Instr.raw, Mnemonic.secondOptional])

theorem bcd (x : RegId) : Statement (.bcd x) :=
  of_build
    (by simp [RawInstr.wf, RawInstr.countOk, RawInstr.rangesOk, RawInstr.fullOperands, Instr.raw, Mnemonic.operandKinds,
      Mnemonic.secondOptional, OperandKind.bound, x.isLt])
    (by simp [RawInstr.build, RawInstr.fullOperands, Instr.raw, Mnemonic.secondOptional])

theorem stm (x : RegId) : Statement (.stm x) :=
  of_build
    (by simp [RawInstr.wf, RawInstr.countOk, RawInstr.rangesOk, RawInstr.fullOperands, Instr.raw, Mnemonic.operandKinds,
      Mnemonic.secondOptional, OperandKind.bound, x.isLt])
    (by simp [RawInstr.build, RawInstr.fullOperands, Instr.raw, Mnemonic.secondOptional])

theorem ldm (x : RegId) : Statement (.ldm x) :=
  of_build
    (by simp [RawInstr.wf, RawInstr.countOk, RawInstr.rangesOk, RawInstr.fullOperands, Instr.raw, Mnemonic.operandKinds,
      Mnemonic.secondOptional, OperandKind.bound, x.isLt])
    (by simp [RawInstr.build, RawInstr.fullOperands, Instr.raw, Mnemonic.secondOptional])

end Sys2Proof.Laws.Assembly
end

