-- ==== Sys2Proof/Laws/Time.lean ====
section
/-! SUPPORT. A time stands for a rational number: its sum and its comparison are exact. -/

namespace Sys2Proof

theorem Time.den_pos (t : Time) : 0 < t.den := Nat.succ_pos _

theorem Time.den_ne_zero (t : Time) : (t.den : ℚ) ≠ 0 := by exact_mod_cast (Time.den_pos t).ne'

theorem Time.toRat_nonneg (t : Time) : 0 ≤ t.toRat := by unfold Time.toRat; positivity

/-- A fraction in lowest terms stands for the same number. -/
theorem Time.toRat_ofFrac (n d : Nat) (hd : 0 < d) : (Time.ofFrac n d).toRat = (n : ℚ) / d := by
  have hg : 0 < Nat.gcd n d := Nat.gcd_pos_of_pos_right n hd
  have hdg : 0 < d / Nat.gcd n d := Nat.div_pos (Nat.le_of_dvd hd (Nat.gcd_dvd_right n d)) hg
  have hden : (Time.ofFrac n d).den = d / Nat.gcd n d := by
    show d / Nat.gcd n d - 1 + 1 = d / Nat.gcd n d
    omega
  unfold Time.toRat
  rw [hden]
  show ((n / Nat.gcd n d : Nat) : ℚ) / ((d / Nat.gcd n d : Nat) : ℚ) = n / d
  rw [Nat.cast_div (Nat.gcd_dvd_left n d) (by exact_mod_cast hg.ne'), Nat.cast_div (Nat.gcd_dvd_right n d) (by exact_mod_cast hg.ne')]
  exact div_div_div_cancel_right₀ (by exact_mod_cast hg.ne') _ _

/-- The sum of two times stands for the sum. -/
@[simp] theorem Time.toRat_add (a b : Time) : (a.add b).toRat = a.toRat + b.toRat := by
  unfold Time.add
  rw [Time.toRat_ofFrac _ _ (Nat.mul_pos a.den_pos b.den_pos)]
  unfold Time.toRat
  rw [div_add_div _ _ a.den_ne_zero b.den_ne_zero]
  push_cast
  ring

@[simp] theorem Time.toRat_zero : Time.zero.toRat = 0 := by simp [Time.toRat, Time.zero]

@[simp] theorem Time.toRat_tickPeriod : tickPeriod.toRat = 1 / 60 := by
  simp [Time.toRat, tickPeriod, Time.den]

/-- The comparison of two times is that of the numbers. -/
theorem Time.le_iff (a b : Time) : a.le b = true ↔ a.toRat ≤ b.toRat := by
  unfold Time.le Time.toRat
  rw [decide_eq_true_eq, div_le_div_iff₀ (by exact_mod_cast a.den_pos) (by exact_mod_cast b.den_pos)]
  exact_mod_cast Iff.rfl

end Sys2Proof
end

