-- ==== Sys2Proof/Tests/Slice0.lean ====
section
/-! SUPPORT. Tests. Expected results are the vectors of 95_test_vectors.md (each named in its test) or worked out by hand
from the rule named; and for every obligation with hypotheses a theorem that its hypotheses can be met. -/

namespace Sys2Proof.Tests
open Sys2Proof.Machine

/-! ### Helpers -/

/-- The inputs of a cycle in which no key event arrives, no time passes and the draw is 0: the vectors' convention. -/
def quiet : CycleInput := ⟨[], Time.zero, 0⟩

/-- The reset state with the inputs of the coming cycle settled as quiet. -/
def base : State := { State.reset with feed := [quiet] }

/-- The reset state whose coming cycle draws `b`. -/
def drawing (b : Byte) : State := { State.reset with feed := [⟨[], Time.zero, b⟩] }

/-- The reset state whose coming cycle is supplied the time `e`. -/
def after (e : Time) : State := { State.reset with feed := [⟨[], e, 0⟩] }

/-- The reset state with these keys pressed before the coming cycle. -/
def pressing (ks : List Nat) : State := { State.reset with feed := [⟨ks.map .down, Time.zero, 0⟩] }

/-- Registers set from (number, value) pairs. -/
def regs (rs : List (Nat × Byte)) (s : State) : State := { s with v := rs.foldl (fun v p => v.setIfInBounds p.1 p.2) s.v }

/-- Memory set from an address up. -/
def bytes (a : Nat) (bs : List Byte) (s : State) : State := { s with mem := s.mem.writeBytes a bs }

/-- Pixels turned on. -/
def lit (ps : List (Nat × Nat)) (s : State) : State := { s with fb := ps.foldl (fun f p => f.toggle p.1 p.2) s.fb }

/-- The pixels that are on, among some. -/
def onOf (ps : List (Nat × Nat)) (t : State) : List (Nat × Nat) := ps.filter fun p => t.fb.pixel p.1 p.2

/-- One cycle with the word at `pc`, and a check of the state after it. -/
def run (w : Word) (s : State) (p : State → Bool) : Bool :=
  match step (s.placeWord w) with
  | .next t => p t
  | .fault _ => false
  | .refused _ => false

/-! ### Well-formedness: one ill-formed line for each check (R72) -/

theorem test_wf_operand_missing : RawInstr.wf ⟨.add, [1]⟩ = false := by decide
theorem test_wf_operand_too_many : RawInstr.wf ⟨.cls, [0]⟩ = false := by decide
theorem test_wf_optional_not_first : RawInstr.wf ⟨.shr, []⟩ = false := by decide
theorem test_wf_register_range : RawInstr.wf ⟨.mov, [1, 16]⟩ = false := by decide
theorem test_wf_byte_range : RawInstr.wf ⟨.ldi, [1, 256]⟩ = false := by decide
theorem test_wf_address_range : RawInstr.wf ⟨.jp, [4096]⟩ = false := by decide
theorem test_wf_nibble_range : RawInstr.wf ⟨.drw, [1, 2, 16]⟩ = false := by decide
theorem test_wf_boundary : RawInstr.wf ⟨.drw, [15, 15, 15]⟩ = true := by decide
theorem test_assemble_optional : RawInstr.assemble ⟨.shr, [1]⟩ = some (.shr 1 0) := by decide
theorem test_assemble_refuses : RawInstr.assemble ⟨.ldx, [4096]⟩ = none := by decide

/-! ### Decoding: for every constructor a word written out from R62 and R66 -/

theorem test_decode_display : decodeWord 0x00E0 = .ok .cls ∧ decodeWord 0xD5A7 = .ok (.drw 0x5 0xA 0x7) := by decide
theorem test_decode_control : decodeWord 0x00EE = .ok .ret ∧ decodeWord 0x1ABC = .ok (.jp 0xABC) ∧
    decodeWord 0x2345 = .ok (.call 0x345) ∧ decodeWord 0xB301 = .ok (.jpv0 0x301) ∧ decodeWord 0x3A42 = .ok (.sei 0xA 0x42) ∧
    decodeWord 0x4B17 = .ok (.snei 0xB 0x17) ∧ decodeWord 0x5120 = .ok (.se 1 2) ∧ decodeWord 0x9340 = .ok (.sne 3 4) := by decide
theorem test_decode_immediate : decodeWord 0x6A42 = .ok (.ldi 0xA 0x42) ∧ decodeWord 0x7105 = .ok (.addi 1 5) ∧
    decodeWord 0xC10F = .ok (.rnd 1 0x0F) := by decide
theorem test_decode_alu : decodeWord 0x8AF0 = .ok (.mov 0xA 0xF) ∧ decodeWord 0x8121 = .ok (.or 1 2) ∧
    decodeWord 0x8122 = .ok (.and 1 2) ∧ decodeWord 0x8123 = .ok (.xor 1 2) ∧ decodeWord 0x8124 = .ok (.add 1 2) ∧
    decodeWord 0x8125 = .ok (.sub 1 2) ∧ decodeWord 0x8126 = .ok (.shr 1 2) ∧ decodeWord 0x8127 = .ok (.subn 1 2) ∧
    decodeWord 0x812E = .ok (.shl 1 2) := by decide
theorem test_decode_index_memory : decodeWord 0xA2F0 = .ok (.ldx 0x2F0) ∧ decodeWord 0xF11E = .ok (.addx 1) ∧
    decodeWord 0xF029 = .ok (.font 0) ∧ decodeWord 0xF033 = .ok (.bcd 0) ∧ decodeWord 0xF255 = .ok (.stm 2) ∧
    decodeWord 0xFF65 = .ok (.ldm 15) := by decide
theorem test_decode_keypad_timers : decodeWord 0xE29E = .ok (.skp 2) ∧ decodeWord 0xE2A1 = .ok (.sknp 2) ∧
    decodeWord 0xF30A = .ok (.wkey 3) ∧ decodeWord 0xF407 = .ok (.gdt 4) ∧ decodeWord 0xF415 = .ok (.sdt 4) ∧
    decodeWord 0xF418 = .ok (.sst 4) := by decide
/-- Unknown words of 95_test_vectors.md section 2.1, some of each family. -/
theorem test_decode_unknown : ([0x0000, 0x00E1, 0x00FE, 0x01E0, 0x0FFF, 0x5121, 0x512F, 0x8128, 0x812D, 0x812F, 0x9121,
    0xE000, 0xE09D, 0xE19F, 0xF100, 0xF01F, 0xF175, 0xF1FF, 0xFFFF] : List Word).all (fun w => decide (decodeWord w = .error (.unknownOpcode w))) = true := by decide
/-- Bytes: high byte first, the rest left over; one byte is no instruction (R60). -/
theorem test_decode_bytes : decode [0x6A, 0x07, 0xFF] = .ok (.ldi 0xA 7, [0xFF]) ∧ decode [0x6A] = .error .truncated := by decide
theorem test_table_word : decodeTableWord 16 0xD123 = some (.drw 1 2 3) ∧ decodeTableWord 16 0x5121 = none := by decide

/-- The program P1, as the spec lists its bytes. -/
theorem test_assembler : (assembleListing 0x200 [.instr .ldi [.num 0, .num 0], .instr .ldi [.num 1, .num 5], .label "loop",
      .instr .add [.num 0, .num 1], .instr .addi [.num 1, .num 255], .instr .sei [.num 1, .num 0], .instr .jp [.label "loop"],
      .label "end", .instr .jp [.label "end"], .byte [0, 255]]).map (·.map Prod.snd) =
    some [0x60, 0x00, 0x61, 0x05, 0x80, 0x14, 0x71, 0xFF, 0x31, 0x00, 0x12, 0x04, 0x12, 0x0C, 0x00, 0xFF] := by decide
theorem test_assembler_org : assembleListing 0x200 [.org 0x300, .byte [7]] = some [(0x300, 7)] ∧
    assembleListing 0x200 [.byte [256]] = none ∧ assembleListing 0x200 [.instr .jp [.label "nowhere"]] = none := by decide

/-! ### Control transfer (95_test_vectors.md section 2.2) -/

/-- CF1. -/
theorem test_ret : run 0x00EE { base with pc := 0x300, sp := 2, stack := (base.stack.set 0 0x202).set 1 0xABC }
    (fun t => t.pc == 0xABC && t.sp == 1 && t.stack[1] == 0xABC && t.result == .ok) = true := by decide
/-- FT5: the fault leaves the machine, the tick still runs. -/
theorem test_ret_underflow : run 0x00EE { after ⟨1, 29⟩ with delay := 3, sound := 1 }
    (fun t => t.result == .fault .stackUnderflow && t.tone && t.pc == 0x200 && t.sp == 0 && t.delay == 2 && t.sound == 0 &&
      t.acc == Time.zero) = true := by decide
/-- CF5, first cycle. -/
theorem test_jp : run 0x1FFF base (fun t => t.pc == 0xFFF && t.result == .ok) = true := by decide
/-- CF9: a return address beyond memory is stored as it is. -/
theorem test_call : run 0x2400 { base with pc := 0xFFE } (fun t => t.stack[0] == 0x1000 && t.sp == 1 && t.pc == 0x400) = true := by
  decide
/-- CF7. -/
theorem test_call_overflow : run 0x2300 { base with sp := 16 }
    (fun t => t.result == .fault .stackOverflow && t.sp == 16 && t.pc == 0x200 && t.stack == base.stack) = true := by decide
/-- CF11: not reduced to 12 bits. -/
theorem test_jpv0 : run 0xBFFF (regs [(0, 0xFF)] base) (fun t => t.pc == 0x10FE && t.result == .ok) = true := by decide
/-- CF12, CF13. -/
theorem test_sei : run 0x3A42 (regs [(10, 0x42)] base) (fun t => t.pc == 0x204) = true ∧
    run 0x3A42 (regs [(10, 0x41)] base) (fun t => t.pc == 0x202) = true := by decide
/-- CF14, CF15. -/
theorem test_snei : run 0x4A42 (regs [(10, 0x42)] base) (fun t => t.pc == 0x202) = true ∧
    run 0x4A42 (regs [(10, 0x41)] base) (fun t => t.pc == 0x204) = true := by decide
/-- CF16, CF17. -/
theorem test_se : run 0x5120 (regs [(1, 7), (2, 7)] base) (fun t => t.pc == 0x204) = true ∧
    run 0x5120 (regs [(1, 7), (2, 8)] base) (fun t => t.pc == 0x202) = true := by decide
/-- CF20, CF21. -/
theorem test_sne : run 0x9120 (regs [(1, 7), (2, 8)] base) (fun t => t.pc == 0x204) = true ∧
    run 0x9330 (regs [(3, 9)] base) (fun t => t.pc == 0x202) = true := by decide

/-! ### Registers and arithmetic (section 2.3) -/

/-- AL2. -/
theorem test_ldi : run 0x6F99 (regs [(15, 1)] base) (fun t => t.reg 15 == 0x99 && t.pc == 0x202) = true := by decide
/-- AL4: wraps, no flag. -/
theorem test_addi : run 0x7AFF (regs [(10, 5), (15, 1)] base) (fun t => t.reg 10 == 4 && t.reg 15 == 1) = true := by decide
/-- R123's example. -/
theorem test_mov : run 0x8AF0 (regs [(15, 1)] base) (fun t => t.reg 10 == 1 && t.reg 15 == 1) = true := by decide
/-- AL7, AL8, AL9. -/
theorem test_or : run 0x8121 (regs [(1, 0xF0), (2, 0x3C), (15, 1)] base) (fun t => t.reg 1 == 0xFC && t.reg 15 == 1) = true := by decide
theorem test_and : run 0x8122 (regs [(1, 0xF0), (2, 0x3C), (15, 1)] base) (fun t => t.reg 1 == 0x30 && t.reg 15 == 1) = true := by decide
theorem test_xor : run 0x8123 (regs [(1, 0xF0), (2, 0x3C), (15, 1)] base) (fun t => t.reg 1 == 0xCC && t.reg 15 == 1) = true := by decide
/-- AL11 (S1). -/
theorem test_add : run 0x8124 (regs [(1, 0xFF), (2, 1)] base) (fun t => t.reg 1 == 0 && t.reg 15 == 1) = true := by decide
/-- AL15, AL16, AL17: the flag is written first. -/
theorem test_add_flag_register : run 0x8F14 (regs [(15, 0xF0), (1, 0x20)] base) (fun t => t.reg 15 == 0x21) = true ∧
    run 0x81F4 (regs [(1, 0xF0), (15, 0x20)] base) (fun t => t.reg 1 == 0xF1 && t.reg 15 == 1) = true ∧
    run 0x8FF4 (regs [(15, 0x80)] base) (fun t => t.reg 15 == 2) = true := by decide
/-- AL19 (S2), AL20. -/
theorem test_sub : run 0x8125 (regs [(1, 1), (2, 2)] base) (fun t => t.reg 1 == 0xFF && t.reg 15 == 0) = true ∧
    run 0x8125 (regs [(1, 5), (2, 5)] base) (fun t => t.reg 1 == 0 && t.reg 15 == 1) = true := by decide
/-- AL22, AL23. -/
theorem test_sub_flag_register : run 0x8F15 (regs [(15, 0x10), (1, 3)] base) (fun t => t.reg 15 == 0xFE) = true ∧
    run 0x81F5 (regs [(1, 0x10), (15, 3)] base) (fun t => t.reg 1 == 0x0F && t.reg 15 == 1) = true := by decide
/-- AL24 (S3). -/
theorem test_shr : run 0x8126 (regs [(1, 0x81), (2, 0x55)] base)
    (fun t => t.reg 1 == 0x40 && t.reg 15 == 1 && t.reg 2 == 0x55) = true := by decide
/-- AL27. -/
theorem test_shr_flag_register : run 0x8F06 (regs [(15, 0xFF)] base) (fun t => t.reg 15 == 0) = true := by decide
/-- AL28, AL29. -/
theorem test_subn : run 0x8127 (regs [(1, 2), (2, 1)] base) (fun t => t.reg 1 == 0xFF && t.reg 15 == 0) = true ∧
    run 0x8127 (regs [(1, 1), (2, 2)] base) (fun t => t.reg 1 == 1 && t.reg 15 == 1) = true := by decide
/-- AL31, AL32. -/
theorem test_subn_flag_register : run 0x8F17 (regs [(15, 5), (1, 9)] base) (fun t => t.reg 15 == 8) = true ∧
    run 0x81F7 (regs [(1, 5), (15, 9)] base) (fun t => t.reg 1 == 0xFC && t.reg 15 == 1) = true := by decide
/-- AL33. -/
theorem test_shl : run 0x812E (regs [(1, 0x81), (2, 0x55)] base) (fun t => t.reg 1 == 2 && t.reg 15 == 1) = true := by decide
/-- AL35. -/
theorem test_shl_flag_register : run 0x8F0E (regs [(15, 0x81)] base) (fun t => t.reg 15 == 2) = true := by decide
/-- AL36. -/
theorem test_rnd : run 0xC10F (regs [(1, 0xEE)] (drawing 0xA7)) (fun t => t.reg 1 == 7) = true := by decide
/-- AL37: the mask 0 gives 0 for every draw, the free one included. -/
theorem test_rnd_mask_zero : run 0xC100 (regs [(1, 0xEE)] (drawing 0xFF)) (fun t => t.reg 1 == 0) = true := by decide

/-! ### Index register and memory (section 2.4) -/

/-- IM2. -/
theorem test_ldx : run 0xAFFF base (fun t => t.index == 0xFFF) = true := by decide
/-- IM3, IM4. -/
theorem test_addx : run 0xF11E (regs [(1, 1), (15, 0x55)] { base with index := 0xFFF })
      (fun t => t.index == 0x1000 && t.reg 15 == 0x55 && t.result == .ok) = true ∧
    run 0xF11E (regs [(1, 1)] { base with index := 0xFFFF }) (fun t => t.index == 0) = true := by decide
/-- IM6, IM7. -/
theorem test_font : run 0xF029 (regs [(0, 0x0A)] base) (fun t => t.index == 0x32) = true ∧
    run 0xF029 (regs [(0, 0xFF)] base) (fun t => t.index == 0x4FB) = true := by decide
/-- IM8. -/
theorem test_bcd : run 0xF033 (regs [(0, 254)] { base with index := 0x300 })
    (fun t => t.mem.readBytes 0x300 3 == [2, 5, 4] && t.index == 0x300) = true := by decide
/-- IM11. -/
theorem test_bcd_out_of_range : run 0xF033 (regs [(0, 100)] { base with index := 0xFFE })
    (fun t => t.result == .fault (.addressOutOfRange 0x1000) && t.mem.read 0xFFE == 0 && t.pc == 0x200) = true := by decide
/-- IM12. -/
theorem test_stm : run 0xF255 (regs [(0, 0x11), (1, 0x22), (2, 0x33), (3, 0x44)] { base with index := 0x400 })
    (fun t => t.mem.readBytes 0x400 4 == [0x11, 0x22, 0x33, 0] && t.index == 0x400) = true := by decide
/-- IM16. -/
theorem test_stm_out_of_range : run 0xFF55 (regs [(0, 1)] { base with index := 0xFF1 })
    (fun t => t.result == .fault (.addressOutOfRange 0x1000) && t.mem.read 0xFF1 == 0) = true := by decide
/-- IM17. -/
theorem test_ldm : run 0xF265 (regs [(3, 0x99)] (bytes 0x400 [0xDE, 0xAD, 0xBE, 0xEF] { base with index := 0x400 }))
    (fun t => [t.reg 0, t.reg 1, t.reg 2, t.reg 3] == [0xDE, 0xAD, 0xBE, 0x99]) = true := by decide
/-- IM22: the lowest address out of range, not wrapped. -/
theorem test_ldm_out_of_range : run 0xF065 { base with index := 0xFFFF }
    (fun t => t.result == .fault (.addressOutOfRange 0xFFFF)) = true := by decide

/-! ### Display (section 2.5) -/

/-- DS1. -/
theorem test_cls : run 0x00E0 (regs [(15, 1)] (lit [(0, 0), (63, 31)] base))
    (fun t => t.fb == State.reset.fb && t.dirty && t.reg 15 == 1) = true := by decide
/-- DS4: wrap in x stays in row 31. -/
theorem test_drw_wrap : run 0xD011 (regs [(0, 62), (1, 31)] (bytes 0x300 [0xF0] { base with index := 0x300 }))
    (fun t => onOf [(62, 31), (63, 31), (0, 31), (1, 31), (2, 31), (61, 31), (62, 0), (0, 0)] t ==
      [(62, 31), (63, 31), (0, 31), (1, 31)] && t.reg 15 == 0 && t.dirty) = true := by decide
/-- DS8: one colliding bit is enough. -/
theorem test_drw_collision : run 0xD011 (lit [(1, 0)] (bytes 0x300 [0xC0] { base with index := 0x300 }))
    (fun t => onOf [(0, 0), (1, 0), (2, 0)] t == [(0, 0)] && t.reg 15 == 1) = true := by decide

/-! ### Keypad and timers (section 2.6, 2.7) -/

/-- KT1. -/
theorem test_skp : run 0xE29E (regs [(2, 0x0A)] (pressing [10])) (fun t => t.pc == 0x204) = true := by decide
/-- KT5: not masked to key 0. -/
theorem test_skp_out_of_range : run 0xE29E (regs [(2, 0x10)] (pressing [0]))
    (fun t => t.result == .fault (.keyIndexOutOfRange 0x10) && t.pc == 0x200) = true := by decide
/-- KT3, KT4. -/
theorem test_sknp : run 0xE2A1 (regs [(2, 0x0A)] (pressing [10])) (fun t => t.pc == 0x202) = true ∧
    run 0xE2A1 (regs [(2, 0x0A)] base) (fun t => t.pc == 0x204) = true := by decide
/-- KT7. -/
theorem test_wkey_waits : run 0xF30A base (fun t => t.mode == .awaitingKey 3 && t.pc == 0x200 && t.result == .ok) = true := by decide
/-- KT8: the highest key wins. -/
theorem test_wkey : run 0xF30A (pressing [5, 1]) (fun t => t.reg 3 == 5 && t.pc == 0x202 && t.mode == .running) = true := by decide
/-- KT17: read before the tick. -/
theorem test_gdt : run 0xF407 { after ⟨1, 99⟩ with delay := 5, acc := ⟨1, 99⟩ }
    (fun t => t.reg 4 == 5 && t.delay == 4 && t.acc == Time.zero) = true := by decide
/-- KT16: written, then decremented by the tick of the same cycle. -/
theorem test_sdt : run 0xF415 (regs [(4, 60)] { after ⟨1, 99⟩ with acc := ⟨1, 99⟩ })
    (fun t => t.delay == 59 && t.acc == Time.zero) = true := by decide
/-- KT15. -/
theorem test_sst : run 0xF418 (regs [(4, 3)] base) (fun t => t.sound == 3 && t.tone == false) = true := by decide
/-- KT12: the poll fetches nothing. -/
theorem test_poll : (match step { (pressing [4]).placeWord 0x6A42 with mode := .awaitingKey 3 } with
    | .next t => t.reg 3 == 4 && t.reg 10 == 0 && t.pc == 0x202 && t.mode == .running
    | .fault _ => false
    | .refused _ => false) = true := by decide
/-- TK1, TK2: the tick fires at 1/60 s and not before. -/
theorem test_tick : run 0x1200 { after ⟨1, 59⟩ with delay := 5, sound := 2 }
      (fun t => t.delay == 4 && t.sound == 1 && t.tone && t.acc == Time.zero) = true ∧
    run 0x1200 { after ⟨1, 60⟩ with delay := 5, sound := 2 }
      (fun t => t.delay == 5 && t.sound == 2 && !t.tone && t.acc == ⟨1, 60⟩) = true := by decide
/-- TK4: once only, the excess dropped. -/
theorem test_tick_excess : run 0x1200 { after ⟨10, 0⟩ with delay := 5, sound := 2 }
    (fun t => t.delay == 4 && t.sound == 1 && t.acc == Time.zero) = true := by decide

/-! ### Faults of the fetch and decode (section 2.8) and the host's operations -/

/-- FT1: the machine with nothing loaded. -/
theorem test_unknown_opcode : (match step { after ⟨1, 59⟩ with delay := 5 } with
    | .next t => t.result == .fault (.unknownOpcode 0x0000) && t.pc == 0x200 && t.delay == 4
    | .fault _ => false
    | .refused _ => false) = true := by decide
/-- FT3. -/
theorem test_fetch_out_of_range : (match step { base with pc := 0xFFF } with
    | .next t => t.result == .fault (.addressOutOfRange 0x1000) && t.pc == 0xFFF
    | .fault _ => false
    | .refused _ => false) = true := by decide
/-- FT4: the last word of memory executes. -/
theorem test_last_word : run 0x6A42 { base with pc := 0xFFE } (fun t => t.reg 10 == 0x42 && t.pc == 0x1000 && t.result == .ok) = true := by
  decide
/-- R28: the glyph table is in place, above it memory is zero. -/
theorem test_reset_memory : State.reset.mem.readBytes 0x04E 4 = [0x80, 0x80, 0, 0] := by decide
/-- R226: a number out of range changes nothing. -/
theorem test_key_events : (State.reset.keyDown 15).keys[15] = true ∧ (State.reset.keyDown 16) = State.reset ∧
    ((State.reset.keyDown 3).keyUp 3).keys = State.reset.keys := by decide
/-- The instruction of a table word is the one the next step runs, after reset and where `pc` cannot be fetched from. -/
theorem test_with_fetch_word : (State.reset.withFetchWord 16 0xA123).fetchInstr = .ok (.ldx 0x123) ∧
    ({ State.reset with pc := 0xFFF }.withFetchWord 16 0xA123).fetchInstr = .ok (.ldx 0x123) := by decide

/-! ### The hypotheses of the obligations can be met -/

theorem witness_EncodeOfDecodeIsTheWord : decodeWord 0x8124 = .ok (.add 1 2) := by decide
theorem witness_HostResetRestoresEveryItem : Item.pc ≠ .feed ∧ Item.pc ≠ .cycles := by decide
theorem witness_EveryStepKeepsTheInvariant : State.reset.Inv ∧ ∃ t, step State.reset = .next t :=
  ⟨⟨rfl, by decide, by decide, by decide, fun _ h => by cases h⟩, _, rfl⟩
theorem witness_StepRunsTheDecodedInstruction : ∃ s : State, s.mode = .running ∧ s.pc.toNat + 1 ≤ 0xFFF ∧
    decodeWord (wordOfBytes (s.mem.read s.pc.toNat) (s.mem.read (s.pc.toNat + 1))) = .ok (.ldi 10 0x42) :=
  ⟨{ base with pc := 0xFFE }.placeWord 0x6A42, by decide⟩
theorem witness_FetchReadsTwoBytesOrFaults : { base with pc := 0xFFF }.pc.toNat + 1 > 0xFFF ∧
    { base with pc := 0xFFE }.pc.toNat + 1 ≤ 0xFFF := by decide
theorem witness_FetchAndDecodeFaultsAreReported_fetch :
    { base with pc := 0xFFF }.mode = .running ∧ { base with pc := 0xFFF }.pc.toNat + 1 > 0xFFF := by decide
theorem witness_FetchAndDecodeFaultsAreReported_decode : base.mode = .running ∧ base.pc.toNat + 1 ≤ 0xFFF ∧
    (0x0000 : Word) = wordOfBytes (base.mem.read base.pc.toNat) (base.mem.read (base.pc.toNat + 1)) ∧
    ∀ m : Mnemonic, m.covers 0x0000 = false := ⟨by decide, by decide, by decide, fun m => by cases m <;> decide⟩
theorem witness_FaultingInstructionChangesNothing : ∃ t, base.result = .ok ∧ exec .ret base = .next t ∧
    t.result = .fault .stackUnderflow ∧ Item.pc ≠ .result := ⟨_, by decide, rfl, by decide, by decide⟩
theorem witness_FaultingCycleOnlyTicks : ∃ t, step base = .next t ∧ t.result = .fault (.unknownOpcode 0) :=
  ⟨_, rfl, by decide⟩
theorem witness_FaultRepeatsOnTheNextCycle : ∃ t u, step base = .next t ∧ t.result = .fault (.unknownOpcode 0) ∧
    step t = .next u := ⟨_, _, rfl, by decide, rfl⟩
theorem witness_InstructionsFaultExactlyAsListed : ∃ t, base.result = .ok ∧ exec (.jp 0x300) base = .next t :=
  ⟨_, by decide, rfl⟩
theorem witness_InstructionsWriteOnlyWhatTheTableNames : ∃ t, exec (.stm 0) { base with index := 0xFFF } = .next t ∧
    ¬ mayWrite { base with index := 0xFFF } (.stm 0) (.byte 0xFFE) ∧ ¬ mayWrite { base with index := 0xFFF } (.stm 0) (.reg 0) :=
  ⟨_, rfl, by simp [mayWrite, writesByte, State.dataAddr], by simp [mayWrite, writesReg]⟩
theorem witness_StackFaultsChangeNothing : { base with sp := 16 }.sp.val = 16 ∧ base.sp.val = 0 ∧ Item.pc ≠ .result := by decide
theorem witness_ReturnPopsThePc : 0 < { base with sp := 1 }.sp.val ∧ 0 < { base with sp := 16 }.sp.val := by decide
theorem witness_CallPushesTheReturnAddress : { base with sp := 15 }.sp.val < 16 ∧ { base with sp := 0 }.sp.val < 16 ∧
    (0 : Fin 16).val ≠ { base with sp := 15 }.sp.val := by decide
theorem witness_ReturnUndoesCall : ∃ t u : State, { base with sp := 15 }.sp.val < 16 ∧
    exec (.call 0x300) { base with sp := 15 } = .next t ∧ u.stack = t.stack ∧ u.sp = t.sp := ⟨_, _, by decide, rfl, rfl, rfl⟩
theorem witness_SelfJumpStaysPut : ∃ t, (base.placeWord 0x1200).selfJump ∧ step (base.placeWord 0x1200) = .next t :=
  ⟨_, ⟨by decide, 0x200, by decide, by decide⟩, rfl⟩
theorem witness_InputsAreReadByTheirInstructionsOnly : ∃ t, exec (.jp 0x300) base = .next t ∧ (Instr.jp 0x300).mnemonic ≠ .rnd ∧
    (Instr.jp 0x300).mnemonic ∉ [Mnemonic.skp, .sknp, .wkey] := ⟨_, rfl, by decide, by decide⟩
theorem witness_LoadImmediateAndMove : (1 : RegId) ≠ flagReg := by decide
theorem witness_TimerMoves : (14 : RegId) ≠ flagReg := by decide
theorem witness_AddImmediateWrapsWithoutFlag : (15 : RegId) ≠ 1 := by decide
/-- The flag and the registers after its write, which the statements about flag-defining instructions quantify over, exist
for every flag. -/
theorem witness_flag_write (s : State) (flag : Byte) : ∃ now : RegId → Byte, ∀ r, now r = if r = flagReg then flag else s.reg r :=
  ⟨_, fun _ => rfl⟩
theorem witness_AddWritesCarryThenSum : (2 : RegId) ≠ 1 ∧
    (1 : Byte) = (if ((regs [(1, 0xFF), (2, 1)] base).reg 1).toNat + ((regs [(1, 0xFF), (2, 1)] base).reg 2).toNat > 255 then 1 else 0) ∧
    (0 : Byte) = (if ((regs [(1, 0xFE), (2, 1)] base).reg 1).toNat + ((regs [(1, 0xFE), (2, 1)] base).reg 2).toNat > 255 then 1 else 0) := by decide
theorem witness_SubtractWritesNoBorrowThenDifference :
    (1 : Byte) = (if ((regs [(1, 5), (2, 5)] base).reg 1).toNat ≥ ((regs [(1, 5), (2, 5)] base).reg 2).toNat then 1 else 0) ∧
    (0 : Byte) = (if ((regs [(1, 5), (2, 4)] base).reg 2).toNat ≥ ((regs [(1, 5), (2, 4)] base).reg 1).toNat then 1 else 0) := by decide
theorem witness_ShiftsWriteTheBitShiftedOut : (1 : Byte).toNat = ((regs [(1, 0x81)] base).reg 1).toNat % 2 ∧
    (1 : Byte).toNat = ((regs [(1, 0x81)] base).reg 1).toNat / 128 := by decide
theorem witness_RandomByteIsMasked : (0x0F : Byte).getLsbD 4 = false := by decide
theorem witness_BcdStoresThreeDigits : { base with index := 0xFFE }.dataAddr + 2 > 0xFFF ∧
    { base with index := 0xFFD }.dataAddr + 2 ≤ 0xFFF ∧ ¬(0xFFD ≤ 0xFFC ∧ 0xFFC ≤ 0xFFF) := by decide
theorem witness_StoreRegistersAtIndex : { base with index := 0xFFF }.dataAddr + (1 : RegId).toNat > 0xFFF ∧
    { base with index := 0xFF0 }.dataAddr + (15 : RegId).toNat ≤ 0xFFF := by decide
theorem witness_LoadRegistersFromIndex : { base with index := 0xFF1 }.dataAddr + (15 : RegId).toNat > 0xFFF ∧
    { base with index := 0xFFF }.dataAddr + (0 : RegId).toNat ≤ 0xFFF ∧ (0 : RegId).toNat < (1 : RegId).toNat := by decide
theorem witness_LoadAfterStoreRestoresRegisters : ∃ t u : State, { base with index := 0xFF0 }.dataAddr + (15 : RegId).toNat ≤ 0xFFF ∧
    exec (.stm 15) { base with index := 0xFF0 } = .next t ∧ u.mem = t.mem ∧ u.index = t.index := ⟨_, _, by decide, rfl, rfl, rfl⟩
/-- IM21. -/
theorem witness_StoreIsSeenByTheFetch : ∃ t u : State, { base with index := 0x202 }.dataAddr + (1 : RegId).toNat ≤ 0xFFF ∧
    exec (.stm 1) { base with index := 0x202 } = .next t ∧ (0 : RegId).toNat + 1 ≤ (1 : RegId).toNat ∧ u.mem = t.mem ∧
    u.pc.toNat = { base with index := 0x202 }.dataAddr + (0 : RegId).toNat := ⟨_, _, by decide, rfl, by decide, rfl, by decide⟩
theorem witness_ByteAccessIsBoundsChecked : 0x1000 > 0xFFF ∧ 0xFFF ≤ 0xFFF ∧ Item.byte 0 ≠ .byte 0xFFF := by decide
/-- A draw of height 0 with `I` out of range, and one whose row is the last byte; a draw that collides and one that does
not. -/
theorem witness_DrawTogglesTheSpritePixels :
    (1 ≤ (1 : Nibble).toNat ∧ { base with index := 0x1000 }.dataAddr + (1 : Nibble).toNat - 1 > 0xFFF) ∧
    ((0 : Nibble).toNat = 0 ∨ { base with index := 0xFFFF }.dataAddr + (0 : Nibble).toNat - 1 ≤ 0xFFF) ∧
    ((1 : Nibble).toNat = 0 ∨ { base with index := 0xFFF }.dataAddr + (1 : Nibble).toNat - 1 ≤ 0xFFF) ∧
    (∃ (px : Fin 64) (py : Fin 32), spriteCovers (lit [(0, 0)] base) 0 1 1 px py = true ∧ (lit [(0, 0)] base).fb.pixel px py = true) ∧
    (¬∃ (px : Fin 64) (py : Fin 32), spriteCovers base 0 1 1 px py = true ∧ base.fb.pixel px py = true) := by
  refine ⟨by decide, by decide, by decide, ⟨0, 0, by decide⟩, ?_⟩
  rintro ⟨px, py, -, h⟩
  simp [base, State.reset, Framebuffer.pixel] at h
/-- DS3. -/
theorem witness_DrawingTwiceRestoresTheDisplay : ∃ t u, ((1 : Nibble).toNat = 0 ∨ base.dataAddr + (1 : Nibble).toNat - 1 ≤ 0xFFF) ∧
    exec (.drw 0 1 1) base = .next t ∧ t.reg 0 = base.reg 0 ∧ t.reg 1 = base.reg 1 ∧ exec (.drw 0 1 1) t = .next u :=
  ⟨_, _, by decide, rfl, by decide, by decide, rfl⟩
theorem witness_WaitForKeyResolvesOrWaits : highestPressed base.keys = none ∧
    highestPressed (base.keyDown 15).keys = some 15 := by decide
theorem witness_WaitingCyclePollsTheKeys : { base with mode := .awaitingKey 3 }.mode = .awaitingKey 3 ∧
    highestPressed { base with mode := .awaitingKey 3 }.deliver.keys = none ∧
    highestPressed { pressing [2, 15] with mode := .awaitingKey 3 }.deliver.keys = some 15 := by decide
theorem witness_KeySkips : ((regs [(2, 15)] base).reg 2).toNat < 16 ∧ ((regs [(2, 16)] base).reg 2).toNat > 15 := by decide
theorem witness_TimerTickFiresAtTheSixtieth :
    1 / 60 ≤ ({ base with elapsed := ⟨1, 59⟩ }.acc.toRat + { base with elapsed := ⟨1, 59⟩ }.elapsed.toRat) ∧
    ({ base with elapsed := ⟨1, 60⟩ }.acc.toRat + { base with elapsed := ⟨1, 60⟩ }.elapsed.toRat) < 1 / 60 ∧
    Item.pc ∉ [Item.acc, .delay, .sound, .tone] := by
  refine ⟨?_, ?_, by decide⟩ <;> norm_num [base, State.reset, Time.toRat, Time.den, Time.zero]
/-- S7 with eight cycles of 2 ms. -/
theorem witness_ShortWindowDecrementsAtMostOnce : totalTime (List.replicate 8 ⟨2, 999⟩) < 1 / 60 := by
  norm_num [totalTime, List.replicate, Time.toRat, Time.den]
/-- S8: the last byte of the image that is loaded, and the last address below it. -/
theorem witness_LoadCopiesTheImage : 3583 < 3584 ∧ 3583 < (List.replicate 4000 (7 : Byte)).length ∧
    ¬(0x200 ≤ 0x1FF ∧ 0x1FF < 0x200 + min (List.replicate 4000 (7 : Byte)).length 3584) ∧ ∀ a, Item.pc ≠ .byte a := by
  rw [List.length_replicate]
  exact ⟨by omega, by omega, by omega, fun a h => by cases h⟩
theorem witness_KeyEventsSetAndClearOneKey : 15 < 16 ∧ 15 < 16 ∧ Item.key 14 ≠ .key ⟨15, by decide⟩ := by decide
theorem witness_PresenterReadsAndClears : Item.pc ≠ .dirty := by decide

end Sys2Proof.Tests
end

section
/-! PROOFS. Faults and completions of `exec`, once for all instructions: where `faultIn` names a fault the instruction takes
it, and where it names none the eight instructions that can fault complete as listed here. -/

namespace Sys2Proof.Machine

/-! ### The check of an access is the fault the tables list -/

/-- The check of at least one byte, by the highest address it reaches (R45). -/
theorem accessFault_succ (a n : Nat) :
    accessFault a (n + 1) = if a + n > 0xFFF then some (.addressOutOfRange (max a 0x1000)) else none := by
  simp [accessFault, ← Nat.add_assoc]

theorem accessFault_drw (s : State) (x y : RegId) (n : Nibble) :
    accessFault s.dataAddr n.toNat = faultIn s (.drw x y n) := rfl

theorem accessFault_bcd (s : State) (x : RegId) :
    accessFault s.dataAddr (decimalDigits (s.reg x)).length = faultIn s (.bcd x) :=
  accessFault_succ s.dataAddr 2

theorem accessFault_stm (s : State) (x : RegId) :
    accessFault s.dataAddr (s.regsUpTo x).length = faultIn s (.stm x) := by
  rw [State.regsUpTo_length, accessFault_succ]; rfl

theorem accessFault_ldm (s : State) (x : RegId) :
    accessFault s.dataAddr (x.toNat + 1) = faultIn s (.ldm x) :=
  accessFault_succ s.dataAddr x.toNat

/-- Only the instructions of R210 have a fault. -/
theorem canFault_of_faultIn {s : State} {i : Instr} {f : Fault} (h : faultIn s i = some f) : canFault i = true := by
  cases i with
  | ret | call | drw | bcd | stm | ldm | skp | sknp => rfl
  | _ => cases h

/-! ### An instruction with a fault takes it (R86, R219) -/

theorem execCall_of_fault {s : State} {nnn : Addr12} {f : Fault} (h : faultIn s (.call nnn) = some f) :
    execCall nnn s = .next (s.raise f) := by
  rcases s.push_cases (s.pc + 2) with ⟨hsp, hpush⟩ | ⟨hsp, -⟩
  · obtain rfl : Fault.stackOverflow = f := by simpa [faultIn, hsp] using h
    simp only [execCall, hpush]
  · simp [faultIn, hsp.ne] at h

theorem execRet_of_fault {s : State} {f : Fault} (h : faultIn s .ret = some f) : execRet s = .next (s.raise f) := by
  rcases s.pop_cases with ⟨hsp, hpop⟩ | ⟨hsp, -⟩
  · obtain rfl : Fault.stackUnderflow = f := by simpa [faultIn, hsp] using h
    simp only [execRet, hpop]
  · simp [faultIn, hsp.ne'] at h

/-- SKP and SKNP: where the table lists a fault, reading the key answers it (R197). -/
theorem State.keyOf_of_fault {s : State} {x : RegId} {f : Fault} (h : faultIn s (.skp x) = some f) :
    s.keyOf x = .error f := by
  rcases s.keyOf_cases x with ⟨hx, hkey⟩ | ⟨hx, -⟩
  · obtain rfl : Fault.keyIndexOutOfRange (s.reg x) = f := by simpa [faultIn, hx] using h
    exact hkey
  · simp [faultIn, Nat.not_lt.2 (Nat.le_of_lt_succ hx)] at h

/-- An instruction with a fault takes it, and that is all it does (R86). -/
theorem exec_of_fault {s : State} {i : Instr} {f : Fault} (h : faultIn s i = some f) :
    exec i s = .next (s.raise f) := by
  cases i with
  | call nnn => exact execCall_of_fault h
  | ret => exact execRet_of_fault h
  | drw x y n => simp only [exec, execDrw, s.readBlock_error ((accessFault_drw s x y n).trans h)]
  | bcd x => simp only [exec, execBcd, s.writeBlock_error ((accessFault_bcd s x).trans h)]
  | stm x => simp only [exec, execStm, s.writeBlock_error ((accessFault_stm s x).trans h)]
  | ldm x => simp only [exec, execLdm, s.readBlock_error ((accessFault_ldm s x).trans h)]
  | skp x => simp only [exec, execSkp, State.keyOf_of_fault h]
  | sknp x => simp only [exec, execSknp, State.keyOf_of_fault (x := x) h]
  | _ => cases h

/-! ### An instruction without a fault completes -/

theorem exec_call_of_noFault {s : State} {nnn : Addr12} (h : faultIn s (.call nnn) = none) :
    ∃ hsp : s.sp.val < 16, exec (.call nnn) s = .next (State.setPc
      { s with stack := s.stack.set s.sp.val (s.pc + 2), sp := ⟨s.sp.val + 1, Nat.succ_lt_succ hsp⟩ } (target nnn)) := by
  rcases s.push_cases (s.pc + 2) with ⟨hsp, -⟩ | ⟨hsp, hpush⟩
  · simp [faultIn, hsp] at h
  · exact ⟨hsp, by simp only [exec, execCall, hpush]⟩

theorem exec_ret_of_noFault {s : State} (h : faultIn s .ret = none) :
    ∃ hsp : 0 < s.sp.val, exec .ret s = .next (State.setPc
      { s with sp := ⟨s.sp.val - 1, by omega⟩ } (s.stack[s.sp.val - 1]'(by omega))) := by
  rcases s.pop_cases with ⟨hsp, -⟩ | ⟨hsp, hpop⟩
  · simp [faultIn, hsp] at h
  · exact ⟨hsp, by simp only [exec, execRet, hpop]⟩

/-- The framebuffer and the collision DRW leaves, where its rows can be read (R172). -/
def State.drawn (s : State) (x y : RegId) (n : Nibble) : Framebuffer × Bool :=
  drawSprite s.fb (s.reg x).toNat (s.reg y).toNat (s.mem.readBytes s.dataAddr n.toNat)

theorem exec_drw_of_noFault {s : State} {x y : RegId} {n : Nibble} (h : faultIn s (.drw x y n) = none) :
    exec (.drw x y n) s = .next (State.setFlag
      { s with fb := (s.drawn x y n).1, dirty := true } (flagOf (s.drawn x y n).2)).advance := by
  simp only [exec, execDrw, s.readBlock_ok ((accessFault_drw s x y n).trans h), State.drawn]

theorem exec_bcd_of_noFault {s : State} {x : RegId} (h : faultIn s (.bcd x) = none) :
    exec (.bcd x) s = .next (State.advance
      { s with mem := s.mem.writeBytes s.dataAddr (decimalDigits (s.reg x)) }) := by
  simp only [exec, execBcd, s.writeBlock_ok ((accessFault_bcd s x).trans h)]

theorem exec_stm_of_noFault {s : State} {x : RegId} (h : faultIn s (.stm x) = none) :
    exec (.stm x) s = .next (State.advance { s with mem := s.mem.writeBytes s.dataAddr (s.regsUpTo x) }) := by
  simp only [exec, execStm, s.writeBlock_ok ((accessFault_stm s x).trans h)]

theorem exec_ldm_of_noFault {s : State} {x : RegId} (h : faultIn s (.ldm x) = none) :
    exec (.ldm x) s = .next (s.setRegs 0 (s.mem.readBytes s.dataAddr (x.toNat + 1))).advance := by
  simp only [exec, execLdm, s.readBlock_ok ((accessFault_ldm s x).trans h)]

/-- SKP and SKNP: where the table lists no fault, the register names a key (R197). -/
theorem State.keyOf_of_noFault {s : State} {x : RegId} (h : faultIn s (.skp x) = none) :
    ∃ hx : (s.reg x).toNat < 16, s.keyOf x = .ok s.keys[(s.reg x).toNat] := by
  rcases s.keyOf_cases x with ⟨hx, -⟩ | hkey
  · simp [faultIn, hx] at h
  · exact hkey

theorem exec_skp_of_noFault {s : State} {x : RegId} (h : faultIn s (.skp x) = none) :
    ∃ hx : (s.reg x).toNat < 16, exec (.skp x) s = .next (s.skipIf s.keys[(s.reg x).toNat]) := by
  obtain ⟨hx, hkey⟩ := State.keyOf_of_noFault h
  exact ⟨hx, by simp only [exec, execSkp, hkey]⟩

theorem exec_sknp_of_noFault {s : State} {x : RegId} (h : faultIn s (.sknp x) = none) :
    ∃ hx : (s.reg x).toNat < 16, exec (.sknp x) s = .next (s.skipIf !s.keys[(s.reg x).toNat]) := by
  obtain ⟨hx, hkey⟩ := State.keyOf_of_noFault (x := x) h
  exact ⟨hx, by simp only [exec, execSknp, hkey]⟩

/-! ### WKEY, by what the scan of the keys answers (R193) -/

theorem exec_wkey_of_none {s : State} (x : RegId) (h : highestPressed s.keys = none) :
    exec (.wkey x) s = .next { s with mode := .awaitingKey x } := by
  simp only [exec, execWkey, h]

theorem exec_wkey_of_some {s : State} (x : RegId) {k : RegId} (h : highestPressed s.keys = some k) :
    exec (.wkey x) s = .next (s.setReg x (k.setWidth 8)).advance := by
  simp only [exec, execWkey, h]

end Sys2Proof.Machine
end

section
/-! PROOFS. Frames: what each update of the state leaves as it was, and from these the frame of every instruction (R27). -/

namespace Sys2Proof.Machine

/-! ### One frame rule per update -/

theorem Item.same_setPc (s : State) (w : Word) {it : Item} (h : it ≠ .pc) : it.same s (s.setPc w) := by
  cases it with
  | pc => exact absurd rfl h
  | _ => rfl

theorem Item.same_setIndex (s : State) (w : Word) {it : Item} (h : it ≠ .index) : it.same s (s.setIndex w) := by
  cases it with
  | index => exact absurd rfl h
  | _ => rfl

theorem Item.same_setReg (s : State) {x : RegId} (b : Byte) {it : Item} (h : it ≠ .reg x) : it.same s (s.setReg x b) := by
  cases it with
  | reg r => exact s.reg_setReg_ne b fun e => h (e ▸ rfl)
  | _ => rfl

/-- Loading `n` registers from `V[0]` on. -/
theorem Item.same_setRegs (s : State) {bs : List Byte} (hbs : bs.length ≤ 16) {it : Item}
    (h : ∀ r : RegId, r.toNat < bs.length → it ≠ .reg r) : it.same s (s.setRegs 0 bs) := by
  cases it with
  | reg r =>
    refine (s.reg_setRegs bs 0 r (by omega)).trans (dif_neg fun hr => ?_)
    exact h r (by omega) rfl
  | _ =>
    obtain ⟨v, hv⟩ := s.setRegs_eq bs 0
    rw [hv]; rfl

theorem Item.same_writeBytes (s : State) {a : Nat} {bs : List Byte} {it : Item}
    (h : ∀ b, a ≤ b → b < a + bs.length → it ≠ .byte b) : it.same s { s with mem := s.mem.writeBytes a bs } := by
  cases it with
  | byte b => exact Memory.read_writeBytes_outside bs s.mem a b fun hb => h b hb.1 hb.2 rfl
  | _ => rfl

theorem Item.same_setDisplay (s : State) (fb : Framebuffer) (d : Bool) {it : Item} (hfb : ∀ x y, it ≠ .pixel x y)
    (hd : it ≠ .dirty) : it.same s { s with fb := fb, dirty := d } := by
  cases it with
  | pixel x y => exact absurd rfl (hfb x y)
  | dirty => exact absurd rfl hd
  | _ => rfl

/-- A push and a pop change the slot written, if any, and `sp` (R16). -/
theorem Item.same_setStack (s : State) {stack : Vector Word 16} (sp : Fin 17) {it : Item}
    (hslot : ∀ k : Fin 16, it = .slot k → stack[k] = s.stack[k]) (hsp : it ≠ .sp) :
    it.same s { s with stack := stack, sp := sp } := by
  cases it with
  | slot k => exact hslot k rfl
  | sp => exact absurd rfl hsp
  | _ => rfl

theorem Item.same_setDelay (s : State) (b : Byte) {it : Item} (h : it ≠ .delay) : it.same s { s with delay := b } := by
  cases it with
  | delay => exact absurd rfl h
  | _ => rfl

theorem Item.same_setSound (s : State) (b : Byte) {it : Item} (h : it ≠ .sound) : it.same s { s with sound := b } := by
  cases it with
  | sound => exact absurd rfl h
  | _ => rfl

theorem Item.same_setMode (s : State) (m : Mode) {it : Item} (h : it ≠ .mode) : it.same s { s with mode := m } := by
  cases it with
  | mode => exact absurd rfl h
  | _ => rfl

/-! ### The frame of an instruction -/

/-- From `s` to `t` only items that the access table lets `i` write in `s` have changed (R27). -/
def Frame (s : State) (i : Instr) (t : State) : Prop := ∀ it : Item, ¬ mayWrite s i it → it.same s t

namespace Frame

variable {s t : State} {i : Instr}

/-- An item that must not be written is none of those that may be. -/
theorem ne_of_mayWrite {it it' : Item} (h : ¬ mayWrite s i it) (h' : mayWrite s i it') : it ≠ it' :=
  fun e => h (e ▸ h')

theorem refl : Frame s i s := fun it _ => it.same_refl s

theorem raise (h : canFault i = true) (f : Fault) : Frame s i (s.raise f) :=
  fun _ hit => Item.same_raise s f (ne_of_mayWrite hit h)

theorem setPc {w : Word} (ht : Frame s i t) : Frame s i (t.setPc w) :=
  fun it hit => Item.same_trans (ht it hit) (Item.same_setPc t w (ne_of_mayWrite hit trivial))

theorem advance (ht : Frame s i t) : Frame s i t.advance := ht.setPc

theorem skipIf {c : Bool} (ht : Frame s i t) : Frame s i (t.skipIf c) := ht.setPc

theorem setReg {x : RegId} {b : Byte} (ht : Frame s i t) (hx : writesReg i x) : Frame s i (t.setReg x b) :=
  fun it hit => Item.same_trans (ht it hit) (Item.same_setReg t b (ne_of_mayWrite hit hx))

theorem setFlag {b : Byte} (ht : Frame s i t) (h : writesReg i flagReg) : Frame s i (t.setFlag b) := ht.setReg h

theorem flagThenResult {x : RegId} {flag result : State → Byte} (hx : writesReg i x) (hf : writesReg i flagReg) :
    Frame s i (s.flagThenResult x flag result) := ((refl.setFlag hf).setReg hx).advance

theorem setIndex {w : Word} (h : i.mnemonic ∈ [Mnemonic.ldx, .addx, .font]) : Frame s i (s.setIndex w) :=
  fun _ hit => Item.same_setIndex s w (ne_of_mayWrite hit h)

theorem setDisplay {fb : Framebuffer} {d : Bool} (h : i.mnemonic ∈ [Mnemonic.cls, .drw]) :
    Frame s i { s with fb := fb, dirty := d } :=
  fun _ hit => Item.same_setDisplay s fb d (fun _ _ => ne_of_mayWrite hit h) (ne_of_mayWrite hit h)

theorem writeBytes {bs : List Byte}
    (h : ∀ a, s.dataAddr ≤ a → a < s.dataAddr + bs.length → writesByte s i a) :
    Frame s i { s with mem := s.mem.writeBytes s.dataAddr bs } :=
  fun _ hit => Item.same_writeBytes s fun a ha hb => ne_of_mayWrite hit (h a ha hb)

end Frame

/-- CALL may write the slot `sp` names and `sp` (R103). -/
theorem call_frame {s : State} {nnn : Addr12} (hsp : s.sp.val < 16) (w : Word) (sp : Fin 17) :
    Frame s (.call nnn) { s with stack := s.stack.set s.sp.val w, sp := sp } := by
  intro it hit
  refine Item.same_setStack s sp ?_ (Frame.ne_of_mayWrite hit (by simp [mayWrite, Instr.mnemonic]))
  rintro k rfl
  exact s.stack.getElem_set_ne hsp k.isLt fun hk => hit ⟨rfl, hk.symm⟩

/-- LDM may write `V[0]` to `V[x]` (R156). -/
theorem ldm_frame {s : State} {x : RegId} {bs : List Byte} (hbs : bs.length = x.toNat + 1) :
    Frame s (.ldm x) (s.setRegs 0 bs) := fun _ hit =>
  Item.same_setRegs s (by omega) fun r hr => Frame.ne_of_mayWrite hit (show r.toNat ≤ x.toNat by omega)

/-- Every instruction completes, and an instruction without a fault changes only what the table names for it (R27). -/
theorem exec_frame_of_noFault {s : State} {i : Instr} (h : faultIn s i = none) :
    ∃ t, exec i s = .next t ∧ Frame s i t := by
  cases i with
  | cls => exact ⟨_, rfl, .advance (.setDisplay (by decide))⟩
  | jp | jpv0 => exact ⟨_, rfl, .setPc .refl⟩
  | sei | snei | se | sne => exact ⟨_, rfl, .skipIf .refl⟩
  | ldi | addi | mov | or | and | xor | rnd | gdt => exact ⟨_, rfl, .advance (.setReg .refl rfl)⟩
  | add | sub | shr | subn | shl => exact ⟨_, rfl, .flagThenResult (.inl rfl) (.inr rfl)⟩
  | ldx | addx | font => exact ⟨_, rfl, .advance (.setIndex (by simp [Instr.mnemonic]))⟩
  | sdt => exact ⟨_, rfl, .advance fun _ hit => Item.same_setDelay s _ (Frame.ne_of_mayWrite hit rfl)⟩
  | sst => exact ⟨_, rfl, .advance fun _ hit => Item.same_setSound s _ (Frame.ne_of_mayWrite hit rfl)⟩
  | wkey x =>
    cases hk : highestPressed s.keys with
    | none => exact ⟨_, exec_wkey_of_none x hk, fun _ hit => Item.same_setMode s _ (Frame.ne_of_mayWrite hit rfl)⟩
    | some k => exact ⟨_, exec_wkey_of_some x hk, .advance (.setReg .refl rfl)⟩
  | call nnn =>
    obtain ⟨hsp, he⟩ := exec_call_of_noFault h
    exact ⟨_, he, .setPc (call_frame hsp _ _)⟩
  | ret =>
    obtain ⟨hsp, he⟩ := exec_ret_of_noFault h
    exact ⟨_, he, .setPc fun _ hit =>
      Item.same_setStack s _ (fun _ _ => rfl) (Frame.ne_of_mayWrite hit (by simp [mayWrite, Instr.mnemonic]))⟩
  | drw => exact ⟨_, exec_drw_of_noFault h, .advance (.setFlag (.setDisplay (by simp [Instr.mnemonic])) rfl)⟩
  | bcd => exact ⟨_, exec_bcd_of_noFault h, .advance (.writeBytes fun a ha hb => ⟨ha, Nat.le_of_lt_succ hb⟩)⟩
  | stm x =>
    refine ⟨_, exec_stm_of_noFault h, .advance (.writeBytes fun a ha hb => ⟨ha, ?_⟩)⟩
    rw [State.regsUpTo_length] at hb
    omega
  | ldm x => exact ⟨_, exec_ldm_of_noFault h, .advance (ldm_frame (s.mem.readBytes_length _ _))⟩
  | skp x =>
    obtain ⟨hx, he⟩ := exec_skp_of_noFault h
    exact ⟨_, he, .skipIf .refl⟩
  | sknp x =>
    obtain ⟨hx, he⟩ := exec_sknp_of_noFault h
    exact ⟨_, he, .skipIf .refl⟩

/-- Every instruction answers a next state that keeps its frame, with a fault or without one. -/
theorem exec_frame (i : Instr) (s : State) : ∃ t, exec i s = .next t ∧ Frame s i t := by
  cases h : faultIn s i with
  | none => exact exec_frame_of_noFault h
  | some f => exact ⟨_, exec_of_fault h, .raise (canFault_of_faultIn h) f⟩

theorem frame_of_exec {i : Instr} {s t : State} (h : exec i s = .next t) : Frame s i t := by
  obtain ⟨u, hu, hframe⟩ := exec_frame i s
  obtain rfl : u = t := Host.Outcome.next.inj (hu.symm.trans h)
  exact hframe

/-- Settles O20: with a fault only the result is written, and without one the case split over the instructions names the
updates each makes, every one with its frame rule. -/
theorem instructionsWriteOnlyWhatTheTableNames : Obligations.InstructionsWriteOnlyWhatTheTableNames := by
  unfold Obligations.InstructionsWriteOnlyWhatTheTableNames
  intro i s t h
  exact frame_of_exec h

end Sys2Proof.Machine
end

section
/-! PROOFS. The two inputs of a cycle that instructions read: an instruction that does not read one commutes with a change
of it (R22, R24, R81). -/

namespace Sys2Proof.Machine

/-- The state with another draw and another snapshot of the keys. -/
def State.withInputs (s : State) (b : Byte) (keys : Vector Bool 16) : State := { s with rnd := b, keys := keys }

/-- No fault depends on the draw or on the keys: SKP and SKNP check the register's value (R211 to R216). -/
theorem faultIn_withInputs (s : State) (i : Instr) (b : Byte) (keys : Vector Bool 16) :
    faultIn (s.withInputs b keys) i = faultIn s i := rfl

theorem State.setRegs_withInputs (bs : List Byte) (b : Byte) (keys : Vector Bool 16) : ∀ (s : State) (k : Nat),
    (s.withInputs b keys).setRegs k bs = (s.setRegs k bs).withInputs b keys := by
  induction bs with
  | nil => exact fun _ _ => rfl
  | cons c bs ih => exact fun s k => ih (s.setReg (BitVec.ofNat 4 k) c) (k + 1)

/-- An instruction without a fault does the same on other inputs, where the draw is another for no RND and the keys are
others for none of SKP, SKNP and WKEY. -/
theorem exec_withInputs_of_noFault {i : Instr} {s : State} {b : Byte} {keys : Vector Bool 16} (h : faultIn s i = none)
    (hrnd : i.mnemonic = .rnd → b = s.rnd) (hkeys : i.mnemonic ∈ [Mnemonic.skp, .sknp, .wkey] → keys = s.keys) :
    ∃ t, exec i s = .next t ∧ exec i (s.withInputs b keys) = .next (t.withInputs b keys) := by
  have h' : faultIn (s.withInputs b keys) i = none := (faultIn_withInputs s i b keys).trans h
  cases i with
  | rnd x nn =>
    obtain rfl := hrnd rfl
    exact ⟨_, rfl, rfl⟩
  | skp x =>
    obtain rfl := hkeys (by simp [Instr.mnemonic])
    obtain ⟨_, he⟩ := exec_skp_of_noFault h
    obtain ⟨_, he'⟩ := exec_skp_of_noFault h'
    exact ⟨_, he, he'⟩
  | sknp x =>
    obtain rfl := hkeys (by simp [Instr.mnemonic])
    obtain ⟨_, he⟩ := exec_sknp_of_noFault h
    obtain ⟨_, he'⟩ := exec_sknp_of_noFault h'
    exact ⟨_, he, he'⟩
  | wkey x =>
    obtain rfl := hkeys (by simp [Instr.mnemonic])
    cases hk : highestPressed s.keys with
    | none => exact ⟨_, exec_wkey_of_none x hk, exec_wkey_of_none (s := s.withInputs b s.keys) x hk⟩
    | some k => exact ⟨_, exec_wkey_of_some x hk, exec_wkey_of_some (s := s.withInputs b s.keys) x hk⟩
  | call nnn =>
    obtain ⟨_, he⟩ := exec_call_of_noFault h
    obtain ⟨_, he'⟩ := exec_call_of_noFault h'
    exact ⟨_, he, he'⟩
  | ret =>
    obtain ⟨_, he⟩ := exec_ret_of_noFault h
    obtain ⟨_, he'⟩ := exec_ret_of_noFault h'
    exact ⟨_, he, he'⟩
  | drw x y n => exact ⟨_, exec_drw_of_noFault h, exec_drw_of_noFault h'⟩
  | bcd x => exact ⟨_, exec_bcd_of_noFault h, exec_bcd_of_noFault h'⟩
  | stm x => exact ⟨_, exec_stm_of_noFault h, exec_stm_of_noFault h'⟩
  | ldm x =>
    refine ⟨_, exec_ldm_of_noFault h, (exec_ldm_of_noFault h').trans ?_⟩
    rw [State.setRegs_withInputs]
    rfl
  | _ => exact ⟨_, rfl, rfl⟩

/-- The same, with a fault or without one. -/
theorem exec_withInputs {i : Instr} {s t : State} {b : Byte} {keys : Vector Bool 16} (h : exec i s = .next t)
    (hrnd : i.mnemonic = .rnd → b = s.rnd) (hkeys : i.mnemonic ∈ [Mnemonic.skp, .sknp, .wkey] → keys = s.keys) :
    exec i (s.withInputs b keys) = .next (t.withInputs b keys) := by
  cases hf : faultIn s i with
  | none =>
    obtain ⟨u, hu, hu'⟩ := exec_withInputs_of_noFault hf hrnd hkeys
    obtain rfl : u = t := Host.Outcome.next.inj (hu.symm.trans h)
    exact hu'
  | some f =>
    obtain rfl : s.raise f = t := Host.Outcome.next.inj ((exec_of_fault hf).symm.trans h)
    exact exec_of_fault ((faultIn_withInputs s i b keys).trans hf)

/-- No instruction changes the draw or the keys (R22, R24). -/
theorem exec_keeps_rnd {i : Instr} {s t : State} (h : exec i s = .next t) : t.rnd = s.rnd :=
  frame_of_exec h .rnd id

theorem exec_keeps_keys {i : Instr} {s t : State} (h : exec i s = .next t) : t.keys = s.keys :=
  Vector.ext fun k hk => frame_of_exec h (.key ⟨k, hk⟩) id

/-- Settles O21: the input that the statement leaves alone is the state's own, which the instruction has kept. -/
theorem inputsAreReadByTheirInstructionsOnly : Obligations.InputsAreReadByTheirInstructionsOnly := by
  unfold Obligations.InputsAreReadByTheirInstructionsOnly
  intro i s t h
  constructor
  · intro hi b
    have ht : { t with rnd := b } = t.withInputs b s.keys := by rw [State.withInputs, ← exec_keeps_keys h]
    rw [ht]
    exact exec_withInputs h (fun e => absurd e hi) (fun _ => rfl)
  · intro hi keys
    have ht : { t with keys := keys } = t.withInputs s.rnd keys := by rw [State.withInputs, ← exec_keeps_rnd h]
    rw [ht]
    exact exec_withInputs h (fun _ => rfl) (fun e => absurd e hi)

end Sys2Proof.Machine
end

section
/-! PROOFS. The state after reset: its memory, its values (R28) and the invariant of a run. -/

namespace Sys2Proof.Machine

theorem glyphTable_length : glyphTable.length = 80 := rfl

/-- Memory after reset is the glyph table from 0x000 on, and zero above it (R41, R42). -/
theorem glyphTable_getElem?_of_lt {a : Nat} (h : a < 80) : glyphTable[a]? = some (State.reset.mem.read a) := by
  have ha : a < glyphTable.length := h
  show glyphTable[a]? = some (glyphTable.getD a 0)
  rw [List.getD_eq_getElem _ _ ha, List.getElem?_eq_getElem ha]

theorem reset_read_of_ge {a : Nat} (h : 0x50 ≤ a) : State.reset.mem.read a = 0 :=
  List.getD_eq_default glyphTable 0 (glyphTable_length.trans_le h)

theorem reset_reg (x : RegId) : State.reset.reg x = 0 := by simp [State.reg, State.reset]

theorem reset_slot (k : Fin 16) : State.reset.stack[k] = 0 := by simp [State.reset]

theorem reset_key (k : Fin 16) : State.reset.keys[k] = false := by simp [State.reset]

theorem reset_pixel (x y : Nat) : State.reset.fb.pixel x y = false := by simp [Framebuffer.pixel, State.reset]

/-- Settles O7: the vectors and memory by the lemmas above, the scalar items by computing them. -/
theorem resetLeavesTheListedValues : Obligations.ResetLeavesTheListedValues := by
  unfold Obligations.ResetLeavesTheListedValues
  have hacc : State.reset.acc.toRat = 0 := by simp [State.reset, Time.zero, Time.toRat]
  exact ⟨reset_reg, rfl, rfl, reset_slot, rfl, rfl, rfl, hacc, fun _ => glyphTable_getElem?_of_lt,
    fun _ => reset_read_of_ge, fun x y => reset_pixel x y, rfl, rfl, reset_key⟩

/-- Settles O9: the machine is not waiting at reset, so the last clause of the invariant asks nothing. -/
theorem resetSatisfiesTheInvariant : Obligations.ResetSatisfiesTheInvariant where
  memCanonical := State.reset_mem_wf
  pcBound := by decide
  slotBound k := by rw [reset_slot]; decide
  accBelowPeriod := by decide
  waitsAtWkey t h := by cases h

end Sys2Proof.Machine
end

section
/-! PROOFS. The invariant of a run: each phase of a cycle keeps it, taking the inputs, the instruction, the key poll, a
fault and the timer tick, and so does the step they make up. -/

namespace Sys2Proof.Machine

/-! ### What a step can do (R80, R81) -/

@[simp] theorem State.fetchInstr_deliver (s : State) : s.deliver.fetchInstr = s.fetchInstr :=
  State.fetchInstr_congr rfl rfl

/-- While the driver waits, the key poll takes the place of an instruction (R193). -/
theorem step_of_awaitingKey {s : State} {x : RegId} (hm : s.mode = .awaitingKey x) :
    step s = .next (s.deliver.pollKey x).timerTick := by
  simp only [step, cycle, State.deliver_mode, hm]

/-- A fault of the fetch or the decode is taken (R82, R86, R213). -/
theorem step_of_fetchInstr_error {s : State} {f : Fault} (hm : s.mode = .running) (hf : s.fetchInstr = .error f) :
    step s = .next (s.deliver.raise f).timerTick := by
  simp only [step, cycle, State.deliver_mode, hm, State.fetchInstr_deliver, hf]

theorem step_of_fetchInstr_ok {s u : State} {i : Instr} (hm : s.mode = .running) (hf : s.fetchInstr = .ok i)
    (he : exec i s.deliver = .next u) : step s = .next u.timerTick := by
  simp only [step, cycle, State.deliver_mode, hm, State.fetchInstr_deliver, hf, he, thenTick]

/-- Everything a step can do: a tick after a key poll, after a fault of the fetch or the decode, or after an instruction. -/
theorem step_cases (s : State) :
    (∃ x, s.mode = .awaitingKey x ∧ step s = .next (s.deliver.pollKey x).timerTick) ∨
    (∃ f, s.mode = .running ∧ s.fetchInstr = .error f ∧ step s = .next (s.deliver.raise f).timerTick) ∨
    (∃ i u, s.mode = .running ∧ s.fetchInstr = .ok i ∧ exec i s.deliver = .next u ∧ step s = .next u.timerTick) := by
  cases hm : s.mode with
  | awaitingKey x => exact .inl ⟨x, rfl, step_of_awaitingKey hm⟩
  | running =>
    cases hf : s.fetchInstr with
    | error f => exact .inr (.inl ⟨f, rfl, rfl, step_of_fetchInstr_error hm hf⟩)
    | ok i =>
      obtain ⟨u, he, -⟩ := exec_frame i s.deliver
      exact .inr (.inr ⟨i, u, rfl, rfl, he, step_of_fetchInstr_ok hm hf he⟩)

/-! ### The program counter after an instruction (R14) -/

theorem target_toNat_le (nnn : Addr12) : (target nnn).toNat ≤ 0xFFF := by
  have hnnn := nnn.isLt
  simp only [target, BitVec.toNat_setWidth]
  omega

theorem State.targetPlusV0_toNat_le (s : State) (nnn : Addr12) : (s.targetPlusV0 nnn).toNat ≤ 0x10FE := by
  have htarget := target_toNat_le nnn
  have hv0 := (s.reg 0).isLt
  simp only [State.targetPlusV0, BitVec.toNat_add, BitVec.toNat_setWidth]
  omega

/-- Past an instruction that was fetched, `pc` is still at most 0x1000, the address CALL may push (R82, R101). -/
theorem State.pc_add_two_toNat_le {s : State} (hpc : s.pc.toNat + 1 ≤ 0xFFF) : (s.pc + 2).toNat ≤ 0x1000 := by
  bv_omega

theorem State.skipIf_pc_toNat_le {s : State} (c : Bool) (hpc : s.pc.toNat + 1 ≤ 0xFFF) :
    (s.skipIf c).pc.toNat ≤ 0x1002 := by
  cases c with
  | false => exact (State.pc_add_two_toNat_le hpc).trans (by decide)
  | true =>
    show (s.pc + 4).toNat ≤ 0x1002
    bv_omega

/-! ### The invariant under one instruction -/

/-- A store without a fault keeps the canonical form (R40, R45). -/
theorem State.writeBytes_wf_of_noFault {s : State} {a : Nat} {bs : List Byte} (hs : s.mem.wf = true)
    (h : accessFault a bs.length = none) : (s.mem.writeBytes a bs).wf = true :=
  State.writeBlock_wf hs (s.writeBlock_ok h)

/-- An instruction without a fault keeps memory canonical and `pc` bounded, where it was fetched and the stack holds what
calls have pushed. -/
theorem exec_memCanonical_pcBound_of_noFault {s : State} {i : Instr} (h : faultIn s i = none) (hmem : s.mem.wf = true)
    (hpc : s.pc.toNat + 1 ≤ 0xFFF) (hslots : ∀ k : Fin 16, s.stack[k].toNat ≤ 0x1000) :
    ∃ t, exec i s = .next t ∧ t.mem.wf = true ∧ t.pc.toNat ≤ 0x10FE := by
  have hnext : (s.pc + 2).toNat ≤ 0x10FE := (State.pc_add_two_toNat_le hpc).trans (by decide)
  have hskip (c : Bool) : (s.skipIf c).pc.toNat ≤ 0x10FE := (State.skipIf_pc_toNat_le c hpc).trans (by decide)
  have htarget (nnn : Addr12) : (target nnn).toNat ≤ 0x10FE := (target_toNat_le nnn).trans (by decide)
  cases i with
  | cls | ldi | addi | mov | or | and | xor | add | sub | shr | subn | shl | rnd | ldx | addx | font | gdt | sdt | sst =>
    exact ⟨_, rfl, hmem, hnext⟩
  | sei | snei | se | sne => exact ⟨_, rfl, hmem, hskip _⟩
  | jp nnn => exact ⟨_, rfl, hmem, htarget nnn⟩
  | jpv0 nnn => exact ⟨_, rfl, hmem, s.targetPlusV0_toNat_le nnn⟩
  | call nnn =>
    obtain ⟨_, he⟩ := exec_call_of_noFault h
    exact ⟨_, he, hmem, htarget nnn⟩
  | ret =>
    obtain ⟨hsp, he⟩ := exec_ret_of_noFault h
    exact ⟨_, he, hmem, (hslots ⟨s.sp.val - 1, by omega⟩).trans (by decide)⟩
  | drw => exact ⟨_, exec_drw_of_noFault h, hmem, hnext⟩
  | bcd x =>
    exact ⟨_, exec_bcd_of_noFault h, State.writeBytes_wf_of_noFault hmem ((accessFault_bcd s x).trans h), hnext⟩
  | stm x =>
    exact ⟨_, exec_stm_of_noFault h, State.writeBytes_wf_of_noFault hmem ((accessFault_stm s x).trans h), hnext⟩
  | ldm x =>
    obtain ⟨v, hv⟩ := s.setRegs_eq (s.mem.readBytes s.dataAddr (x.toNat + 1)) 0
    refine ⟨_, exec_ldm_of_noFault h, ?_⟩
    rw [hv]
    exact ⟨hmem, hnext⟩
  | skp x =>
    obtain ⟨_, he⟩ := exec_skp_of_noFault h
    exact ⟨_, he, hmem, hskip _⟩
  | sknp x =>
    obtain ⟨_, he⟩ := exec_sknp_of_noFault h
    exact ⟨_, he, hmem, hskip _⟩
  | wkey x =>
    cases hk : highestPressed s.keys with
    | none => exact ⟨_, exec_wkey_of_none x hk, hmem, by show s.pc.toNat ≤ 0x10FE; omega⟩
    | some k => exact ⟨_, exec_wkey_of_some x hk, hmem, hnext⟩

theorem exec_memCanonical_pcBound {s t : State} {i : Instr} (h : exec i s = .next t) (hmem : s.mem.wf = true)
    (hpc : s.pc.toNat + 1 ≤ 0xFFF) (hslots : ∀ k : Fin 16, s.stack[k].toNat ≤ 0x1000) :
    t.mem.wf = true ∧ t.pc.toNat ≤ 0x10FE := by
  cases hf : faultIn s i with
  | none =>
    obtain ⟨u, hu, hkept⟩ := exec_memCanonical_pcBound_of_noFault hf hmem hpc hslots
    obtain rfl : u = t := Host.Outcome.next.inj (hu.symm.trans h)
    exact hkept
  | some f =>
    obtain rfl : s.raise f = t := Host.Outcome.next.inj ((exec_of_fault hf).symm.trans h)
    exact ⟨hmem, by show s.pc.toNat ≤ 0x10FE; omega⟩

/-- CALL writes `pc + 2` to one slot and leaves the others (R103). -/
theorem exec_call_slotBound {s t : State} {nnn : Addr12} (h : exec (.call nnn) s = .next t) (hpc : s.pc.toNat + 1 ≤ 0xFFF)
    (hslots : ∀ k : Fin 16, s.stack[k].toNat ≤ 0x1000) (k : Fin 16) : t.stack[k].toNat ≤ 0x1000 := by
  cases hf : faultIn s (.call nnn) with
  | none =>
    obtain ⟨hsp, he⟩ := exec_call_of_noFault hf
    obtain rfl := Host.Outcome.next.inj (he.symm.trans h)
    show (s.stack.set s.sp.val (s.pc + 2))[k.val].toNat ≤ 0x1000
    rw [Vector.getElem_set]
    split
    · exact State.pc_add_two_toNat_le hpc
    · exact hslots k
  | some f =>
    obtain rfl : s.raise f = t := Host.Outcome.next.inj ((exec_of_fault hf).symm.trans h)
    exact hslots k

/-- Every pushed address is at most 0x1000: CALL keeps the bound, and no other instruction writes a slot (R27). -/
theorem exec_slotBound {s t : State} {i : Instr} (h : exec i s = .next t) (hpc : s.pc.toNat + 1 ≤ 0xFFF)
    (hslots : ∀ k : Fin 16, s.stack[k].toNat ≤ 0x1000) (k : Fin 16) : t.stack[k].toNat ≤ 0x1000 := by
  by_cases hi : i.mnemonic = .call
  · cases i with
    | call nnn => exact exec_call_slotBound h hpc hslots k
    | _ => cases hi
  · have hk : t.stack[k] = s.stack[k] := frame_of_exec h (.slot k) fun hw => hi hw.1
    rw [hk]
    exact hslots k

/-- Only WKEY begins a wait, for its own register, and it leaves memory and `pc` as they are (R193). -/
theorem exec_of_awaitingKey {s t : State} {i : Instr} {x : RegId} (h : exec i s = .next t) (hs : s.mode = .running)
    (ht : t.mode = .awaitingKey x) : i = .wkey x ∧ t = { s with mode := .awaitingKey x } := by
  by_cases hi : i.mnemonic = .wkey
  · cases i with
    | wkey y =>
      cases hk : highestPressed s.keys with
      | none =>
        obtain rfl := Host.Outcome.next.inj ((exec_wkey_of_none y hk).symm.trans h)
        obtain rfl : y = x := Mode.awaitingKey.inj ht
        exact ⟨rfl, rfl⟩
      | some k =>
        obtain rfl := Host.Outcome.next.inj ((exec_wkey_of_some y hk).symm.trans h)
        exact absurd (hs.symm.trans ht) (by simp)
    | _ => cases hi
  · have hmode : t.mode = s.mode := frame_of_exec h .mode hi
    exact absurd (hs.symm.trans (hmode.symm.trans ht)) (by simp)

namespace State.Inv

variable {s t : State}

/-- The invariant speaks of memory, `pc`, the stack, the accumulator and the mode only. -/
theorem of_fields (hs : s.Inv) (hmem : t.mem = s.mem) (hpc : t.pc = s.pc) (hstack : t.stack = s.stack)
    (hmode : t.mode = s.mode) (hacc : tickPeriod.le t.acc = false) : t.Inv where
  memCanonical := hmem ▸ hs.memCanonical
  pcBound := hpc ▸ hs.pcBound
  slotBound := hstack ▸ hs.slotBound
  accBelowPeriod := hacc
  waitsAtWkey x hx := (State.fetchInstr_congr hmem hpc).trans (hs.waitsAtWkey x (hmode ▸ hx))

theorem deliver (hs : s.Inv) : s.deliver.Inv := hs.of_fields rfl rfl rfl rfl hs.accBelowPeriod

theorem raise (hs : s.Inv) (f : Fault) : (s.raise f).Inv := hs.of_fields rfl rfl rfl rfl hs.accBelowPeriod

/-- The tick fires exactly where the accumulator would reach the period, and then empties it (R223). -/
theorem timerTick (hs : s.Inv) : s.timerTick.Inv := by
  refine hs.of_fields rfl rfl rfl rfl ?_
  rw [State.timerTick_acc]
  split
  · decide
  case isFalse hfires => exact Bool.eq_false_iff.2 hfires

/-- A wait that ends goes on past the FX0A, which lies inside memory (R193). -/
theorem pollKey {x : RegId} (hs : s.Inv) (hm : s.mode = .awaitingKey x) : (s.pollKey x).Inv := by
  rcases s.pollKey_cases x with ⟨-, hpoll⟩ | ⟨k, -, hpoll⟩ <;> rw [hpoll]
  · exact hs
  · have hpc := State.pc_of_fetchInstr_ok (hs.waitsAtWkey x hm)
    exact {
      memCanonical := hs.memCanonical
      pcBound := (State.pc_add_two_toNat_le hpc).trans (by decide)
      slotBound := hs.slotBound
      accBelowPeriod := hs.accBelowPeriod
      waitsAtWkey := fun _ h => by cases h }

theorem exec {i : Instr} (hs : s.Inv) (hm : s.mode = .running) (hf : s.fetchInstr = .ok i)
    (he : exec i s = .next t) : t.Inv := by
  have hpc := State.pc_of_fetchInstr_ok hf
  obtain ⟨hmem, hbound⟩ := exec_memCanonical_pcBound he hs.memCanonical hpc hs.slotBound
  have hacc : t.acc = s.acc := frame_of_exec he .acc id
  refine ⟨hmem, hbound, exec_slotBound he hpc hs.slotBound, hacc ▸ hs.accBelowPeriod, fun x hx => ?_⟩
  obtain ⟨rfl, rfl⟩ := exec_of_awaitingKey he hm hx
  exact hf

end State.Inv

/-- Settles O10: each of the three things a step can do ends with a tick, and every phase of it keeps the invariant. -/
theorem everyStepKeepsTheInvariant : Obligations.EveryStepKeepsTheInvariant := by
  unfold Obligations.EveryStepKeepsTheInvariant
  intro s t hs h
  have hd : s.deliver.Inv := hs.deliver
  rcases step_cases s with ⟨x, hm, hstep⟩ | ⟨f, -, -, hstep⟩ | ⟨i, u, hm, hf, he, hstep⟩ <;>
    obtain rfl := Host.Outcome.next.inj (hstep.symm.trans h)
  · exact (hd.pollKey hm).timerTick
  · exact (hd.raise f).timerTick
  · exact (hd.exec hm (s.fetchInstr_deliver.trans hf) he).timerTick

end Sys2Proof.Machine
end

section
/-! PROOFS. Memory as instructions and the fetch see it: one byte under its bounds check, and a store that is fetched. -/

namespace Sys2Proof.Machine

/-- The check of one byte (R43, R44). -/
theorem accessFault_one_of_gt {a : Nat} (h : a > 0xFFF) : accessFault a 1 = some (.addressOutOfRange a) := by
  rw [accessFault_of_gt le_rfl h, max_eq_left h]

theorem accessFault_one_of_le {a : Nat} (h : a ≤ 0xFFF) : accessFault a 1 = none :=
  (accessFault_eq_none_iff a 1).2 (.inr (Nat.succ_le_succ h))

/-- Settles O45: the check decides between the fault and the access, and a write of one byte has the frame of a block. -/
theorem byteAccessIsBoundsChecked : Obligations.ByteAccessIsBoundsChecked := by
  unfold Obligations.ByteAccessIsBoundsChecked
  intro s a b
  constructor
  · intro ha
    have hfault := accessFault_one_of_gt ha
    exact ⟨s.readBlock_error hfault, s.writeBlock_error hfault⟩
  · intro ha
    have hfault := accessFault_one_of_le ha
    refine ⟨s.readBlock_ok hfault, _, s.writeBlock_ok hfault, s.mem.read_write_same a b, fun it hit => ?_⟩
    refine Item.same_writeBytes s fun c hac hca => ?_
    obtain rfl : c = a := Nat.le_antisymm (Nat.le_of_lt_succ hca) hac
    exact hit

/-- STM inside memory: register `k` is what the byte at `I + k` reads as afterwards (R155). -/
theorem exec_stm_read {s t : State} {x : RegId} (hin : s.dataAddr + x.toNat ≤ 0xFFF) (h : exec (.stm x) s = .next t)
    {k : Nat} (hk : k ≤ x.toNat) : t.mem.read (s.dataAddr + k) = s.reg (BitVec.ofNat 4 k) := by
  have hf : faultIn s (.stm x) = none := if_neg (Nat.not_lt.2 hin)
  obtain rfl := Host.Outcome.next.inj ((exec_stm_of_noFault hf).symm.trans h)
  have hlen : k < (s.regsUpTo x).length := by rw [State.regsUpTo_length]; omega
  rw [State.advance_mem, Memory.read_writeBytes, dif_pos ⟨by omega, by omega⟩, State.regsUpTo_getElem,
    Nat.add_sub_cancel_left]

/-- Settles O44: the fetch at `I + k` reads the two bytes where STM put registers `k` and `k + 1`. -/
theorem storeIsSeenByTheFetch : Obligations.StoreIsSeenByTheFetch := by
  unfold Obligations.StoreIsSeenByTheFetch
  intro x k s t u hin h hk hmem hpc
  have hhigh : u.mem.read u.pc.toNat = s.reg k := by
    rw [hmem, hpc, exec_stm_read hin h (by omega), BitVec.ofNat_toNat, BitVec.setWidth_eq]
  have hlow : u.mem.read (u.pc.toNat + 1) = s.reg (k + 1) := by
    have hsucc : BitVec.ofNat 4 (k.toNat + 1) = k + 1 := by simp [BitVec.ofNat_add]
    rw [hmem, hpc, Nat.add_assoc, exec_stm_read hin h hk, hsucc]
  rcases u.fetchWord_cases with ⟨hout, -⟩ | ⟨-, hword⟩
  · omega
  · rw [hword, hhigh, hlow, wordOfBytes]

end Sys2Proof.Machine
end

section
/-! PROOFS. The decoder and the encoder: a word is put together again from its fields, one law says what the decoder can
answer, and the rows of the opcode map are read by field. -/

namespace Sys2Proof

/-! ### A word from its fields (R61, R62) -/

theorem formatA_eq_of_fields {w : Word} {o : Nibble} {nnn : Addr12} (ho : fieldO w = o) (hn : fieldNNN w = nnn) :
    formatA o nnn = w := by
  subst ho hn
  apply BitVec.eq_of_toNat_eq
  rw [formatA_toNat, fieldO_toNat, fieldNNN_toNat]
  omega

theorem formatXI_eq_of_fields {w : Word} {o : Nibble} {nn : Byte} (ho : fieldO w = o) (hn : fieldNN w = nn) :
    formatXI o (fieldX w) nn = w := by
  subst ho hn
  apply BitVec.eq_of_toNat_eq
  rw [formatXI_toNat, fieldO_toNat, fieldX_toNat, fieldNN_toNat]
  omega

theorem formatXS_eq_of_fields {w : Word} {o : Nibble} {s : Byte} (ho : fieldO w = o) (hs : fieldNN w = s) :
    formatXS o (fieldX w) s = w := formatXI_eq_of_fields ho hs

theorem formatXY_eq_of_fields {w : Word} {o n : Nibble} (ho : fieldO w = o) (hn : fieldN w = n) :
    formatXY o (fieldX w) (fieldY w) n = w := by
  subst ho hn
  apply BitVec.eq_of_toNat_eq
  rw [formatXY_toNat, fieldO_toNat, fieldX_toNat, fieldY_toNat, fieldN_toNat]
  omega

/-! ### Decoding an encoded instruction (R62, R66) -/

/-- Settles O1: the decoder reads back, format by format, the fields the encoder has put together (R62). -/
theorem decodeOfEncodeIsTheInstruction : Obligations.DecodeOfEncodeIsTheInstruction := by
  unfold Obligations.DecodeOfEncodeIsTheInstruction
  intro i
  cases i with
  | cls | ret => decide
  | jp | call | ldx | jpv0 => simp [encode, decodeWord, fields_formatA]
  | sei | snei | ldi | addi | rnd => simp [encode, decodeWord, fields_formatXI]
  | drw => simp [encode, decodeWord, fields_formatXY]
  | se => simp [encode, decodeWord, decodeFamily5, fields_formatXY]
  | mov | or | and | xor | add | sub | shr | subn | shl =>
    simp [encode, decodeWord, decodeFamily8, fields_formatXY]
  | sne => simp [encode, decodeWord, decodeFamily9, fields_formatXY]
  | skp | sknp => simp [encode, decodeWord, decodeFamilyE, fields_formatXS]
  | gdt | wkey | sdt | sst | addx | font | bcd | stm | ldm =>
    simp [encode, decodeWord, decodeFamilyF, fields_formatXS]

/-! ### What the decoder can answer (R67, R73) -/

/-- An answer of the decoder keeps every bit of the word: an instruction encodes to it, an error reports it. -/
def KeepsWord (w : Word) : Except DecodeError Instr → Prop
  | .ok i => encode i = w
  | .error e => e = .unknownOpcode w

/-- One line of a family: where its selector matches, the instruction answered encodes to the word. -/
theorem KeepsWord.ite {w : Word} {c : Prop} [Decidable c] {i : Instr} {r : Except DecodeError Instr}
    (hi : c → encode i = w) (hr : KeepsWord w r) : KeepsWord w (if c then .ok i else r) := by
  split
  case isTrue hc => exact hi hc
  case isFalse => exact hr

theorem decodeFamily0_keepsWord {w : Word} (ho : fieldO w = 0x0#4) : KeepsWord w (decodeFamily0 w) :=
  .ite (formatA_eq_of_fields ho) (.ite (formatA_eq_of_fields ho) rfl)

theorem decodeFamily5_keepsWord {w : Word} (ho : fieldO w = 0x5#4) : KeepsWord w (decodeFamily5 w) :=
  .ite (formatXY_eq_of_fields ho) rfl

theorem decodeFamily8_keepsWord {w : Word} (ho : fieldO w = 0x8#4) : KeepsWord w (decodeFamily8 w) := by
  unfold decodeFamily8
  iterate 9 refine .ite (formatXY_eq_of_fields ho) ?_
  rfl

theorem decodeFamily9_keepsWord {w : Word} (ho : fieldO w = 0x9#4) : KeepsWord w (decodeFamily9 w) :=
  .ite (formatXY_eq_of_fields ho) rfl

theorem decodeFamilyE_keepsWord {w : Word} (ho : fieldO w = 0xE#4) : KeepsWord w (decodeFamilyE w) :=
  .ite (formatXS_eq_of_fields ho) (.ite (formatXS_eq_of_fields ho) rfl)

theorem decodeFamilyF_keepsWord {w : Word} (ho : fieldO w = 0xF#4) : KeepsWord w (decodeFamilyF w) := by
  unfold decodeFamilyF
  iterate 9 refine .ite (formatXS_eq_of_fields ho) ?_
  rfl

/-- The family selector takes the word to its family, and every family keeps the word. -/
theorem decodeWord_keepsWord (w : Word) : KeepsWord w (decodeWord w) := by
  have hfamily {k : Nat} (h : (fieldO w).toNat = k) : fieldO w = BitVec.ofNat 4 k := by
    rw [← h, BitVec.ofNat_toNat, BitVec.setWidth_eq]
  unfold decodeWord
  split
  case h_1 h => exact decodeFamily0_keepsWord (hfamily h)
  case h_6 h => exact decodeFamily5_keepsWord (hfamily h)
  case h_9 h => exact decodeFamily8_keepsWord (hfamily h)
  case h_10 h => exact decodeFamily9_keepsWord (hfamily h)
  case h_15 h => exact decodeFamilyE_keepsWord (hfamily h)
  case h_16 =>
    have hlt := (fieldO w).isLt
    have hF : (fieldO w).toNat = 0xF := by grind
    exact decodeFamilyF_keepsWord (hfamily hF)
  case h_2 h | h_3 h | h_11 h | h_12 h => exact formatA_eq_of_fields (hfamily h) rfl
  case h_14 h => exact formatXY_eq_of_fields (hfamily h) rfl
  case h_4 h | h_5 h | h_7 h | h_8 h | h_13 h => exact formatXI_eq_of_fields (hfamily h) rfl

/-- Settles O2: an instruction the decoder answers keeps the word. -/
theorem encodeOfDecodeIsTheWord : Obligations.EncodeOfDecodeIsTheWord := by
  unfold Obligations.EncodeOfDecodeIsTheWord
  intro w i h
  have hw := decodeWord_keepsWord w
  rwa [h] at hw

/-! ### The rows of the opcode map, by field (R64, R66) -/

theorem Mnemonic.covers_iff (m : Mnemonic) (w : Word) : m.covers w = true ↔ w &&& m.maskWord = m.matchWord := beq_iff_eq

theorem formatA_and (o o' : Nibble) (n n' : Addr12) : formatA o n &&& formatA o' n' = formatA (o &&& o') (n &&& n') :=
  BitVec.and_append

theorem formatXS_and (o o' : Nibble) (x x' : RegId) (s s' : Byte) :
    formatXS o x s &&& formatXS o' x' s' = formatXS (o &&& o') (x &&& x') (s &&& s') :=
  BitVec.and_append.trans (congrArg (· ++ (s &&& s')) BitVec.and_append)

theorem formatXY_and (o o' : Nibble) (x x' y y' : RegId) (s s' : Nibble) :
    formatXY o x y s &&& formatXY o' x' y' s' = formatXY (o &&& o') (x &&& x') (y &&& y') (s &&& s') :=
  BitVec.and_append.trans (congrArg₂ (· ++ ·) BitVec.and_append BitVec.and_append)

/-- The mask of `ONNN` keeps the family selector. -/
theorem and_selector (w : Word) : w &&& 0xF000#16 = formatA (fieldO w) 0 :=
  calc w &&& 0xF000#16
    _ = formatA (fieldO w) (fieldNNN w) &&& formatA (.allOnes 4) 0 := by rw [formatA_eq_of_fields rfl rfl]; rfl
    _ = formatA (fieldO w) 0 := by simp only [formatA_and, BitVec.and_allOnes, BitVec.and_zero, BitVec.ofNat_eq_ofNat]

/-- The mask of `OXYS` keeps the family selector and the low nibble. -/
theorem and_selector_nibble (w : Word) : w &&& 0xF00F#16 = formatXY (fieldO w) 0 0 (fieldN w) :=
  calc w &&& 0xF00F#16
    _ = formatXY (fieldO w) (fieldX w) (fieldY w) (fieldN w) &&& formatXY (.allOnes 4) 0 0 (.allOnes 4) := by
      rw [formatXY_eq_of_fields rfl rfl]; rfl
    _ = formatXY (fieldO w) 0 0 (fieldN w) := by
      simp only [formatXY_and, BitVec.and_allOnes, BitVec.and_zero, BitVec.ofNat_eq_ofNat]

/-- The mask of `OXSS` keeps the family selector and the low byte. -/
theorem and_selector_byte (w : Word) : w &&& 0xF0FF#16 = formatXS (fieldO w) 0 (fieldNN w) :=
  calc w &&& 0xF0FF#16
    _ = formatXS (fieldO w) (fieldX w) (fieldNN w) &&& formatXS (.allOnes 4) 0 (.allOnes 8) := by
      rw [formatXS_eq_of_fields rfl rfl]; rfl
    _ = formatXS (fieldO w) 0 (fieldNN w) := by
      simp only [formatXS_and, BitVec.and_allOnes, BitVec.and_zero, BitVec.ofNat_eq_ofNat]

section
variable {m : Mnemonic} {w : Word}

theorem Mnemonic.covers_iff_word (hmask : m.maskWord = 0xFFFF#16) : m.covers w = true ↔ w = m.matchWord := by
  have hones : 0xFFFF#16 = BitVec.allOnes 16 := rfl
  rw [m.covers_iff, hmask, hones, BitVec.and_allOnes]

theorem Mnemonic.covers_iff_selector (hmask : m.maskWord = 0xF000#16)
    (hmatch : m.matchWord = formatA (fieldO m.matchWord) 0) :
    m.covers w = true ↔ fieldO w = fieldO m.matchWord := by
  rw [m.covers_iff, hmask, and_selector]
  constructor
  · intro h
    rw [← h]
    exact (fields_formatA _ _).1.symm
  · intro h
    rw [h, ← hmatch]

theorem Mnemonic.covers_iff_selector_nibble (hmask : m.maskWord = 0xF00F#16)
    (hmatch : m.matchWord = formatXY (fieldO m.matchWord) 0 0 (fieldN m.matchWord)) :
    m.covers w = true ↔ fieldO w = fieldO m.matchWord ∧ fieldN w = fieldN m.matchWord := by
  rw [m.covers_iff, hmask, and_selector_nibble]
  constructor
  · intro h
    obtain ⟨ho, -, -, hn⟩ := fields_formatXY (fieldO w) 0 0 (fieldN w)
    rw [← h]
    exact ⟨ho.symm, hn.symm⟩
  · rintro ⟨ho, hn⟩
    rw [ho, hn, ← hmatch]

theorem Mnemonic.covers_iff_selector_byte (hmask : m.maskWord = 0xF0FF#16)
    (hmatch : m.matchWord = formatXS (fieldO m.matchWord) 0 (fieldNN m.matchWord)) :
    m.covers w = true ↔ fieldO w = fieldO m.matchWord ∧ fieldNN w = fieldNN m.matchWord := by
  rw [m.covers_iff, hmask, and_selector_byte]
  constructor
  · intro h
    obtain ⟨ho, -, hn⟩ := fields_formatXS (fieldO w) 0 (fieldNN w)
    rw [← h]
    exact ⟨ho.symm, hn.symm⟩
  · rintro ⟨ho, hn⟩
    rw [ho, hn, ← hmatch]

end

/-- The word of an instruction matches the instruction's own row. -/
theorem covers_encode (i : Instr) : i.mnemonic.covers (encode i) = true := by
  cases i with
  | cls | ret => decide
  | jp nnn | call nnn | ldx nnn | jpv0 nnn =>
    simp only [Instr.mnemonic, encode]
    exact (Mnemonic.covers_iff_selector rfl rfl).2 (fields_formatA _ nnn).1
  | sei x nn | snei x nn | ldi x nn | addi x nn | rnd x nn =>
    simp only [Instr.mnemonic, encode]
    exact (Mnemonic.covers_iff_selector rfl rfl).2 (fields_formatXI _ x nn).1
  | drw x y n =>
    simp only [Instr.mnemonic, encode]
    exact (Mnemonic.covers_iff_selector rfl rfl).2 (fields_formatXY _ x y n).1
  | se x y | mov x y | or x y | and x y | xor x y | add x y | sub x y | shr x y | subn x y | shl x y | sne x y =>
    obtain ⟨ho, -, -, hn⟩ := fields_formatXY _ x y _
    simp only [Instr.mnemonic, encode]
    exact (Mnemonic.covers_iff_selector_nibble rfl rfl).2 ⟨ho, hn⟩
  | skp x | sknp x | gdt x | wkey x | sdt x | sst x | addx x | font x | bcd x | stm x | ldm x =>
    obtain ⟨ho, -, hn⟩ := fields_formatXS _ x _
    simp only [Instr.mnemonic, encode]
    exact (Mnemonic.covers_iff_selector_byte rfl rfl).2 ⟨ho, hn⟩

/-- A word that matches a row decodes to an instruction of that row: the mask keeps the fields the decoder tests. -/
theorem exists_decodeWord_of_covers {m : Mnemonic} {w : Word} (h : m.covers w = true) :
    ∃ i : Instr, decodeWord w = .ok i ∧ i.mnemonic = m := by
  cases m with
  | cls | ret =>
    obtain rfl := (Mnemonic.covers_iff_word rfl).1 h
    exact ⟨_, rfl, rfl⟩
  | jp | call | sei | snei | ldi | addi | ldx | jpv0 | rnd | drw =>
    rw [decodeWord, (Mnemonic.covers_iff_selector rfl rfl).1 h]
    exact ⟨_, rfl, rfl⟩
  | se | mov | or | and | xor | add | sub | shr | subn | shl | sne =>
    obtain ⟨ho, hn⟩ := (Mnemonic.covers_iff_selector_nibble rfl rfl).1 h
    simp only [decodeWord, decodeFamily5, decodeFamily8, decodeFamily9, ho, hn]
    exact ⟨_, rfl, rfl⟩
  | skp | sknp | gdt | wkey | sdt | sst | addx | font | bcd | stm | ldm =>
    obtain ⟨ho, hn⟩ := (Mnemonic.covers_iff_selector_byte rfl rfl).1 h
    simp only [decodeWord, decodeFamilyE, decodeFamilyF, ho, hn]
    exact ⟨_, rfl, rfl⟩

/-- Settles O3: a row's word decodes into the row, and what a word decodes to encodes to the word, so its row matches. -/
theorem opcodeMapRowsDecideTheInstruction : Obligations.OpcodeMapRowsDecideTheInstruction := by
  unfold Obligations.OpcodeMapRowsDecideTheInstruction
  intro m w
  constructor
  · exact exists_decodeWord_of_covers
  · rintro ⟨i, hi, rfl⟩
    rw [← encodeOfDecodeIsTheWord w i hi]
    exact covers_encode i

/-- Settles O4: the decoder answers an instruction of a matching row or reports the word, never both. -/
theorem unmatchedWordsAreUnknownOpcodes : Obligations.UnmatchedWordsAreUnknownOpcodes := by
  unfold Obligations.UnmatchedWordsAreUnknownOpcodes
  intro w
  constructor
  · intro herr m
    refine Bool.eq_false_iff.2 fun hm => ?_
    obtain ⟨i, hi, -⟩ := exists_decodeWord_of_covers hm
    cases herr.symm.trans hi
  · intro hnone
    have hw := decodeWord_keepsWord w
    cases hd : decodeWord w with
    | ok i =>
      have hi := (opcodeMapRowsDecideTheInstruction i.mnemonic w).2 ⟨i, hd, rfl⟩
      rw [hnone] at hi
      cases hi
    | error e =>
      rw [hd] at hw
      exact congrArg Except.error hw

/-- Settles O5: each listed word is computed. -/
theorem listedWordsDecodeAsListed : Obligations.ListedWordsDecodeAsListed := by
  unfold Obligations.ListedWordsDecodeAsListed
  decide

/-- Settles O6: the two bytes are the word's halves, and put together they give back the word, which decodes by O1. -/
theorem decodeTakesTwoBytesHighFirst : Obligations.DecodeTakesTwoBytesHighFirst := by
  unfold Obligations.DecodeTakesTwoBytesHighFirst
  intro i rest
  have hword := wordOfBytes_bytesOfWord (encode i)
  constructor
  · refine ⟨_, _, rfl, ?_⟩
    rw [← wordOfBytes_toNat, hword]
  · simp only [encodeBytes, bytesOfWord, List.cons_append, List.nil_append, decode, hword,
      decodeOfEncodeIsTheInstruction i, Except.map]

end Sys2Proof
end

section
/-! PROOFS. The result an instruction leaves: without a fault it stands, so a reported fault is the one the tables list and
the state is otherwise the one before (R86, R219). -/

namespace Sys2Proof.Machine

/-- An instruction without a fault leaves the `result` as it is: by its frame if it has no row in R210, else by the state it
completes with. -/
theorem exec_result_of_noFault {s : State} {i : Instr} (h : faultIn s i = none) :
    ∃ t, exec i s = .next t ∧ t.result = s.result := by
  cases i with
  | call nnn =>
    obtain ⟨_, he⟩ := exec_call_of_noFault h
    exact ⟨_, he, rfl⟩
  | ret =>
    obtain ⟨_, he⟩ := exec_ret_of_noFault h
    exact ⟨_, he, rfl⟩
  | drw => exact ⟨_, exec_drw_of_noFault h, rfl⟩
  | bcd => exact ⟨_, exec_bcd_of_noFault h, rfl⟩
  | stm => exact ⟨_, exec_stm_of_noFault h, rfl⟩
  | ldm x =>
    obtain ⟨v, hv⟩ := s.setRegs_eq (s.mem.readBytes s.dataAddr (x.toNat + 1)) 0
    exact ⟨_, exec_ldm_of_noFault h, by rw [State.advance_result, hv]⟩
  | skp =>
    obtain ⟨_, he⟩ := exec_skp_of_noFault h
    exact ⟨_, he, rfl⟩
  | sknp =>
    obtain ⟨_, he⟩ := exec_sknp_of_noFault h
    exact ⟨_, he, rfl⟩
  | _ =>
    obtain ⟨t, he, hframe⟩ := exec_frame_of_noFault h
    exact ⟨t, he, hframe .result Bool.false_ne_true⟩

/-- A fault reported by an instruction that began with `ok` is the one the tables list, and taking it is all the instruction
did (R86). -/
theorem faultIn_of_exec_result {i : Instr} {s t : State} {f : Fault} (hs : s.result = .ok) (h : exec i s = .next t)
    (ht : t.result = .fault f) : faultIn s i = some f ∧ t = s.raise f := by
  cases hf : faultIn s i with
  | none =>
    obtain ⟨u, hu, hresult⟩ := exec_result_of_noFault hf
    obtain rfl : u = t := Host.Outcome.next.inj (hu.symm.trans h)
    cases ht.symm.trans (hresult.trans hs)
  | some g =>
    obtain rfl : s.raise g = t := Host.Outcome.next.inj ((exec_of_fault hf).symm.trans h)
    obtain rfl : g = f := CycleResult.fault.inj ht
    exact ⟨rfl, rfl⟩

/-- Settles O16: all a faulting instruction does is take the fault, which writes the result alone. -/
theorem faultingInstructionChangesNothing : Obligations.FaultingInstructionChangesNothing := by
  unfold Obligations.FaultingInstructionChangesNothing
  intro i s t f hs h ht it hit
  obtain ⟨-, rfl⟩ := faultIn_of_exec_result hs h ht
  exact Item.same_raise s f hit

/-- Settles O11: the next state of the frame, which every instruction has. -/
theorem everyInstructionAnswersANextState : Obligations.EveryInstructionAnswersANextState := by
  unfold Obligations.EveryInstructionAnswersANextState
  intro i s
  obtain ⟨t, he, -⟩ := exec_frame i s
  exact ⟨t, he⟩

end Sys2Proof.Machine
end

section
/-! PROOFS. The cycle: what the fetch and the decode answer from the bytes at `pc`, the tick that ends every cycle, the
cycles that report a fault, and the jump to itself. -/

namespace Sys2Proof.Machine

/-! ### Fetch and decode from the bytes at `pc` (R82, R83) -/

/-- Settles O14: the cases of the fetch exclude each other by the address of the second byte. -/
theorem fetchReadsTwoBytesOrFaults : Obligations.FetchReadsTwoBytesOrFaults := by
  unfold Obligations.FetchReadsTwoBytesOrFaults
  intro s
  rcases s.fetchWord_cases with ⟨hpc, hf⟩ | ⟨hpc, hw⟩
  · exact ⟨fun _ => hf, fun hin => absurd hpc (Nat.not_lt.2 hin)⟩
  · exact ⟨fun hout => absurd hout (Nat.not_lt.2 hpc), fun _ => ⟨_, hw, wordOfBytes_toNat _ _⟩⟩

section
variable {s : State}

theorem State.fetchInstr_of_fetchWord_error {f : Fault} (h : s.fetchWord = .error f) : s.fetchInstr = .error f := by
  simp only [State.fetchInstr, h]

theorem State.fetchWord_of_pc (hpc : s.pc.toNat + 1 ≤ 0xFFF) :
    s.fetchWord = .ok (wordOfBytes (s.mem.read s.pc.toNat) (s.mem.read (s.pc.toNat + 1))) := by
  rcases s.fetchWord_cases with ⟨hout, -⟩ | ⟨-, hw⟩
  · omega
  · exact hw

theorem State.fetchInstr_of_decodeWord_ok {w : Word} {i : Instr} (h : s.fetchWord = .ok w) (hd : decodeWord w = .ok i) :
    s.fetchInstr = .ok i := by
  simp only [State.fetchInstr, h, hd]

theorem State.fetchInstr_of_decodeWord_error {w : Word} {e : DecodeError} (h : s.fetchWord = .ok w)
    (hd : decodeWord w = .error e) : s.fetchInstr = .error (.unknownOpcode w) := by
  simp only [State.fetchInstr, h, hd]

end

/-- Settles O15: a word that matches no row is an unknown opcode by O4, and a step takes the fault of a fetch or decode. -/
theorem fetchAndDecodeFaultsAreReported : Obligations.FetchAndDecodeFaultsAreReported := by
  unfold Obligations.FetchAndDecodeFaultsAreReported
  intro s hm
  constructor
  · intro hout
    have hword := (fetchReadsTwoBytesOrFaults s).1 hout
    exact step_of_fetchInstr_error hm (State.fetchInstr_of_fetchWord_error hword)
  · rintro w hpc rfl hnone
    have hunknown := (unmatchedWordsAreUnknownOpcodes _).2 hnone
    exact step_of_fetchInstr_error hm (State.fetchInstr_of_decodeWord_error (State.fetchWord_of_pc hpc) hunknown)

/-- Settles O13: the bytes at `pc` are what the step fetches, and the instruction they decode to answers a next state. -/
theorem stepRunsTheDecodedInstruction : Obligations.StepRunsTheDecodedInstruction := by
  unfold Obligations.StepRunsTheDecodedInstruction
  intro s i hm hpc hd
  have hfetch : s.fetchInstr = .ok i := State.fetchInstr_of_decodeWord_ok (State.fetchWord_of_pc hpc) hd
  obtain ⟨t, he⟩ := everyInstructionAnswersANextState i s.deliver
  exact ⟨⟨t, he, step_of_fetchInstr_ok hm hfetch he⟩, rfl⟩

/-! ### Every cycle ends with one tick (R81, R223) -/

/-- A key poll leaves alone what the accumulator's tick reads and what the cycle reports (R193). -/
theorem State.pollKey_keeps (s : State) (x : RegId) :
    (s.pollKey x).acc = s.acc ∧ (s.pollKey x).elapsed = s.elapsed ∧ (s.pollKey x).result = s.result := by
  rcases s.pollKey_cases x with ⟨-, hpoll⟩ | ⟨k, -, hpoll⟩ <;> rw [hpoll] <;> exact ⟨rfl, rfl, rfl⟩

/-- Settles O12: whatever comes before the tick, a key poll, a fault or an instruction, leaves the accumulator and the
elapsed time alone. -/
theorem everyCycleEndsWithOneTick : Obligations.EveryCycleEndsWithOneTick := by
  unfold Obligations.EveryCycleEndsWithOneTick
  intro s
  rcases step_cases s with ⟨x, -, hstep⟩ | ⟨f, -, -, hstep⟩ | ⟨i, u, -, -, he, hstep⟩
  · obtain ⟨hacc, helapsed, -⟩ := s.deliver.pollKey_keeps x
    exact ⟨_, hstep, hacc, helapsed⟩
  · exact ⟨_, hstep, rfl, rfl⟩
  · exact ⟨u, hstep, frame_of_exec he .acc id, frame_of_exec he .elapsed id⟩

/-! ### Cycles that report a fault (R86 to R88) -/

/-- The coming cycle reports the fault `f`: the fetch or the decode at `pc` fails with it, or the instruction there raises
it. It speaks of no input of the cycle. -/
def State.FaultsWith (s : State) (f : Fault) : Prop :=
  s.mode = .running ∧ (s.fetchInstr = .error f ∨ ∃ i, s.fetchInstr = .ok i ∧ faultIn s i = some f)

/-- Such a cycle takes the fault and then its tick, and does nothing else. -/
theorem step_of_faultsWith {s : State} {f : Fault} (h : s.FaultsWith f) :
    step s = .next (s.deliver.raise f).timerTick := by
  obtain ⟨hm, hf | ⟨i, hi, hf⟩⟩ := h
  · exact step_of_fetchInstr_error hm hf
  · exact step_of_fetchInstr_ok hm hi (exec_of_fault (s := s.deliver) hf)

/-- A cycle begins with the result `ok`, so a fault it reports is its own. -/
theorem faultsWith_of_step_result {s t : State} {f : Fault} (h : step s = .next t) (ht : t.result = .fault f) :
    s.FaultsWith f := by
  rcases step_cases s with ⟨x, -, hstep⟩ | ⟨g, hm, hg, hstep⟩ | ⟨i, u, hm, hi, he, hstep⟩ <;>
    obtain rfl := Host.Outcome.next.inj (hstep.symm.trans h)
  · obtain ⟨-, -, hresult⟩ := s.deliver.pollKey_keeps x
    cases ht.symm.trans hresult
  · obtain rfl : g = f := CycleResult.fault.inj ht
    exact ⟨hm, .inl hg⟩
  · obtain ⟨hf, -⟩ := faultIn_of_exec_result s.deliver_result he ht
    exact ⟨hm, .inr ⟨i, hi, hf⟩⟩

theorem step_eq_of_result {s t : State} {f : Fault} (h : step s = .next t) (ht : t.result = .fault f) :
    t = (s.deliver.raise f).timerTick :=
  Host.Outcome.next.inj (h.symm.trans (step_of_faultsWith (faultsWith_of_step_result h ht)))

/-- The fault and the tick touch nothing that the next fetch or the next check of a fault reads. -/
theorem State.FaultsWith.next {s : State} {f : Fault} (h : s.FaultsWith f) :
    (s.deliver.raise f).timerTick.FaultsWith f := by
  have hfetch : (s.deliver.raise f).timerTick.fetchInstr = s.fetchInstr := State.fetchInstr_congr rfl rfl
  obtain ⟨hm, hf⟩ := h
  refine ⟨hm, ?_⟩
  rw [hfetch]
  exact hf

theorem Item.same_raise_cycle (s : State) (f : Fault) {it : Item} (hit : it.ofEveryCycle = false) :
    it.same s (s.deliver.raise f).timerTick :=
  Item.same_of_fields (s := s) (t := (s.deliver.raise f).timerTick) rfl rfl rfl rfl rfl rfl rfl rfl rfl it hit

/-- Settles O17: the cycle took its fault and its tick, which touch only what every cycle may change. -/
theorem faultingCycleOnlyTicks : Obligations.FaultingCycleOnlyTicks := by
  unfold Obligations.FaultingCycleOnlyTicks
  intro s t f h ht
  obtain rfl := step_eq_of_result h ht
  exact ⟨rfl, fun _ => Item.same_raise_cycle s f⟩

/-- Settles O18: what decides the fault is kept by the cycle that reports it, and no input has a part in it. -/
theorem faultRepeatsOnTheNextCycle : Obligations.FaultRepeatsOnTheNextCycle := by
  unfold Obligations.FaultRepeatsOnTheNextCycle
  intro s t u f h ht hu
  have hs := faultsWith_of_step_result h ht
  obtain rfl := step_eq_of_result h ht
  obtain rfl := Host.Outcome.next.inj ((step_of_faultsWith hs.next).symm.trans hu)
  exact ⟨rfl, fun _ hit => Item.same_trans (Item.same_raise_cycle s f hit) (Item.same_raise_cycle _ f hit)⟩

/-! ### The jump to itself (R90, R102) -/

/-- Settles O30: the jump writes to `pc` the value it has, so the next fetch reads the same jump. -/
theorem selfJumpStaysPut : Obligations.SelfJumpStaysPut := by
  unfold Obligations.SelfJumpStaysPut
  rintro s t ⟨hm, nnn, hf, htarget⟩ h
  have hstep : step s = .next (s.deliver.setPc (target nnn)).timerTick := step_of_fetchInstr_ok hm hf rfl
  obtain rfl := Host.Outcome.next.inj (hstep.symm.trans h)
  have hfetch : (s.deliver.setPc (target nnn)).timerTick.fetchInstr = s.fetchInstr := State.fetchInstr_congr rfl htarget
  constructor
  · exact ⟨hm, nnn, hfetch.trans hf, rfl⟩
  · exact Item.same_of_fields rfl rfl rfl htarget rfl rfl rfl rfl rfl

end Sys2Proof.Machine
end

section
/-! PROOFS. Control transfer (41_control_flow.md): the call and the return where the stack has room or an address, the
targets of the jumps as numbers, and the two outcomes of a skip. -/

namespace Sys2Proof.Machine

/-! ### Call and return (R101, R103) -/

/-- With a free slot the call pushes `pc + 2` to it (R103). -/
theorem exec_call_of_room {s : State} (nnn : Addr12) (hsp : s.sp.val < 16) :
    exec (.call nnn) s = .next (State.setPc
      { s with stack := s.stack.set s.sp.val (s.pc + 2), sp := ⟨s.sp.val + 1, Nat.succ_lt_succ hsp⟩ } (target nnn)) := by
  obtain ⟨_, he⟩ := exec_call_of_noFault (s := s) (nnn := nnn) (if_neg hsp.ne)
  exact he

/-- With `k + 1` return addresses on the stack the return takes the one in slot `k` (R101). -/
theorem exec_ret_of_sp {s : State} {k : Fin 16} (hk : s.sp = k.succ) :
    exec .ret s = .next (State.setPc { s with sp := k.castSucc } s.stack[k]) := by
  have hval : s.sp.val = k.val + 1 := congrArg Fin.val hk
  obtain ⟨_, he⟩ := exec_ret_of_noFault (s := s) (if_neg (by omega))
  simp only [hval, Nat.add_sub_cancel] at he
  exact he

/-- Settles O29: the call writes `pc + 2` to the slot at `sp` and the return reads that slot. -/
theorem returnUndoesCall : Obligations.ReturnUndoesCall := by
  unfold Obligations.ReturnUndoesCall
  intro nnn s t u hsp hcall hstack husp
  obtain rfl := Host.Outcome.next.inj ((exec_call_of_room nnn hsp).symm.trans hcall)
  have hret := exec_ret_of_sp (s := u) (k := ⟨s.sp.val, hsp⟩) husp
  have hslot : u.stack[s.sp.val] = s.pc + 2 := by
    simp only [hstack, State.setPc_stack, Vector.getElem_set_self]
  exact ⟨_, hret, hslot, rfl⟩

/-- Settles O23: what the return completes with, since the stack is not empty. -/
theorem returnPopsThePc : Obligations.ReturnPopsThePc := by
  unfold Obligations.ReturnPopsThePc
  intro s h
  obtain ⟨_, he⟩ := exec_ret_of_noFault (s := s) (if_neg h.ne')
  exact ⟨_, he, rfl, rfl, rfl, rfl⟩

/-! ### The targets of jumps and calls (R102 to R104) -/

theorem target_toNat (nnn : Addr12) : (target nnn).toNat = nnn.toNat := BitVec.toNat_setWidth_of_le (by decide)

/-- The sum of a target and a byte fits in 16 bits (R104). -/
theorem State.targetPlusV0_toNat (s : State) (nnn : Addr12) :
    (s.targetPlusV0 nnn).toNat = nnn.toNat + (s.reg 0).toNat := by
  have hnnn := nnn.isLt
  have hv0 := (s.reg 0).isLt
  rw [State.targetPlusV0, BitVec.toNat_add, target_toNat, BitVec.toNat_setWidth_of_le (by decide)]
  exact Nat.mod_eq_of_lt (by omega)

/-- Settles O24: the word from its two fields, and the target as a number. -/
theorem jumpSetsThePc : Obligations.JumpSetsThePc := by
  unfold Obligations.JumpSetsThePc
  intro nnn s
  exact ⟨formatA_toNat 1 nnn, _, rfl, target_toNat nnn, rfl, rfl⟩

/-- Settles O25: the pushed slot reads `pc + 2`, every other slot reads as before. -/
theorem callPushesTheReturnAddress : Obligations.CallPushesTheReturnAddress := by
  unfold Obligations.CallPushesTheReturnAddress
  intro nnn s hsp
  refine ⟨_, exec_call_of_room nnn hsp, ?_, ?_, rfl, target_toNat nnn, rfl⟩
  · exact Vector.getElem_set_self hsp
  · intro k hk
    exact Vector.getElem_set_ne hsp k.isLt hk.symm

/-- Settles O26: the sum is exact. -/
theorem jumpPlusV0IsNotMasked : Obligations.JumpPlusV0IsNotMasked := by
  unfold Obligations.JumpPlusV0IsNotMasked
  intro nnn s
  exact ⟨_, rfl, s.targetPlusV0_toNat nnn, rfl⟩

/-! ### Conditional skips (R105 to R108) -/

theorem State.skipIf_beq_pc (s : State) (a b : Byte) :
    (s.skipIf (a == b)).pc = if a = b then s.pc + 4 else s.pc + 2 := by
  simp only [State.skipIf_pc, beq_iff_eq]

theorem State.skipIf_bne_pc (s : State) (a b : Byte) :
    (s.skipIf (a != b)).pc = if a = b then s.pc + 2 else s.pc + 4 := by
  simp only [State.skipIf_pc, bne_iff_ne, ite_not]

/-- Settles O27: the words from their three fields, and the skip on equality or on difference, which writes `pc` alone. -/
theorem immediateSkips : Obligations.ImmediateSkips := by
  unfold Obligations.ImmediateSkips
  intro x nn s
  refine ⟨formatXI_toNat 3 x nn, formatXI_toNat 4 x nn, ?_, ?_⟩
  · exact ⟨_, rfl, s.skipIf_beq_pc (s.reg x) nn, rfl, rfl⟩
  · exact ⟨_, rfl, s.skipIf_bne_pc (s.reg x) nn, rfl, rfl⟩

/-- Settles O28: the same two outcomes with a register in place of the immediate. -/
theorem registerSkips : Obligations.RegisterSkips := by
  unfold Obligations.RegisterSkips
  intro x y s
  constructor
  · exact ⟨_, rfl, s.skipIf_beq_pc (s.reg x) (s.reg y)⟩
  · exact ⟨_, rfl, s.skipIf_bne_pc (s.reg x) (s.reg y)⟩

end Sys2Proof.Machine
end

section
/-! PROOFS. Registers and arithmetic (42_alu.md): the flags and the results as numbers, the two writes of a flag-defining
instruction, and the instructions that write one register and no flag. -/

namespace Sys2Proof.Machine

/-! ### The flags, as the rules give them (R127 to R131) -/

theorem carryFlag_eq (a b : Byte) : carryFlag a b = if a.toNat + b.toNat > 255 then 1 else 0 := by
  simp only [carryFlag, flagOf, decide_eq_true_eq]

theorem noBorrowFlag_eq (a b : Byte) : noBorrowFlag a b = if a.toNat ≥ b.toNat then 1 else 0 := by
  simp only [noBorrowFlag, flagOf, decide_eq_true_eq]

theorem shiftedOutRight_toNat (a : Byte) : (shiftedOutRight a).toNat = a.toNat % 2 := by
  rw [shiftedOutRight, BitVec.toNat_and]
  exact Nat.and_one_is_mod a.toNat

theorem shiftedOutLeft_toNat (a : Byte) : (shiftedOutLeft a).toNat = a.toNat / 128 := by
  rw [shiftedOutLeft, BitVec.toNat_ushiftRight, Nat.shiftRight_eq_div_pow]

/-! ### The results as numbers (R128 to R131) -/

/-- A difference modulo 256, the subtraction taken in the integers (R128, R130). -/
theorem byte_sub_toNat (a b : Byte) : ((a - b).toNat : Int) = (a.toNat - b.toNat : Int) % 256 := by
  have ha := a.isLt
  have hb := b.isLt
  rw [BitVec.toNat_sub]
  omega

theorem byte_shiftRight_one_toNat (a : Byte) : (a >>> 1).toNat = a.toNat / 2 := by
  rw [BitVec.toNat_ushiftRight, Nat.shiftRight_eq_div_pow]

theorem byte_shiftLeft_one_toNat (a : Byte) : (a <<< 1).toNat = a.toNat * 2 % 256 := by
  rw [BitVec.toNat_shiftLeft, Nat.shiftLeft_eq]

/-! ### The flag first, then the result (R120, D9) -/

/-- The registers as the flag's write leaves them. -/
theorem State.reg_setFlag_eq {s : State} {b : Byte} {now : RegId → Byte}
    (hnow : ∀ r, now r = if r = flagReg then b else s.reg r) : (s.setFlag b).reg = now :=
  funext fun r => (s.reg_setFlag r b).trans (hnow r).symm

/-- What a flag-defining instruction does. Only its own flag meets `isFlag`, and `spec` computes the result's `value` from
the registers. Then, with `now` for the registers as the flag's write leaves them, `V[x]` reads as `spec now` and every
other register as in `now`. -/
theorem exec_flagThenResult {i : Instr} {s : State} {x : RegId} {flag result : State → Byte} {α : Type} (value : Byte → α)
    {isFlag : Byte → Prop} {spec : (RegId → Byte) → α} (hexec : exec i s = .next (s.flagThenResult x flag result))
    (hflag : ∀ b, isFlag b → b = flag s) (hresult : ∀ u : State, value (result u) = spec u.reg) :
    ∃ t, exec i s = .next t ∧ t.pc = s.pc + 2 ∧ ∀ (b : Byte) (now : RegId → Byte), isFlag b →
      (∀ r, now r = if r = flagReg then b else s.reg r) → value (t.reg x) = spec now ∧ ∀ r, r ≠ x → t.reg r = now r := by
  refine ⟨_, hexec, rfl, fun b now hb hnow => ?_⟩
  obtain rfl := hflag b hb
  constructor
  · rw [State.reg_flagThenResult, if_pos rfl, hresult, State.reg_setFlag_eq hnow]
  · intro r hr
    rw [State.reg_flagThenResult, if_neg hr, hnow]

/-- Settles O34: the carry is the flag, and the sum is taken after its write. -/
theorem addWritesCarryThenSum : Obligations.AddWritesCarryThenSum := by
  unfold Obligations.AddWritesCarryThenSum
  intro x y s
  exact exec_flagThenResult BitVec.toNat rfl (fun _ hflag => hflag.trans (carryFlag_eq _ _).symm)
    fun u => BitVec.toNat_add (u.reg x) (u.reg y)

/-- Settles O35: SUB and SUBN are the same two writes with the operands exchanged. -/
theorem subtractWritesNoBorrowThenDifference : Obligations.SubtractWritesNoBorrowThenDifference := by
  unfold Obligations.SubtractWritesNoBorrowThenDifference
  intro x y s
  constructor
  · exact exec_flagThenResult (fun b => (b.toNat : Int)) rfl (fun _ hflag => hflag.trans (noBorrowFlag_eq _ _).symm)
      fun u => byte_sub_toNat (u.reg x) (u.reg y)
  · exact exec_flagThenResult (fun b => (b.toNat : Int)) rfl (fun _ hflag => hflag.trans (noBorrowFlag_eq _ _).symm)
      fun u => byte_sub_toNat (u.reg y) (u.reg x)

/-- Settles O36: the bit shifted out is the flag, the shift is taken after its write, and no meaning names the second
operand (R69). -/
theorem shiftsWriteTheBitShiftedOut : Obligations.ShiftsWriteTheBitShiftedOut := by
  unfold Obligations.ShiftsWriteTheBitShiftedOut
  intro x y s
  refine ⟨?_, ?_, fun y' => ⟨rfl, rfl⟩⟩
  · exact exec_flagThenResult BitVec.toNat rfl
      (fun _ hflag => BitVec.eq_of_toNat_eq (hflag.trans (shiftedOutRight_toNat _).symm))
      fun u => byte_shiftRight_one_toNat (u.reg x)
  · exact exec_flagThenResult BitVec.toNat rfl
      (fun _ hflag => BitVec.eq_of_toNat_eq (hflag.trans (shiftedOutLeft_toNat _).symm))
      fun u => byte_shiftLeft_one_toNat (u.reg x)

/-! ### One register written, no flag (R121 to R126, R132) -/

/-- Settles O31: the words from their fields, and one register written, which is `VF` only where X is 15. -/
theorem loadImmediateAndMove : Obligations.LoadImmediateAndMove := by
  unfold Obligations.LoadImmediateAndMove
  intro x y nn s
  refine ⟨formatXI_toNat 6 x nn, formatXY_toNat 8 x y 0, ?_, ?_⟩
  · exact ⟨_, rfl, s.reg_setReg_same x _, rfl, fun hx => s.reg_setReg_ne _ hx.symm, rfl⟩
  · exact ⟨_, rfl, s.reg_setReg_same x _, rfl, fun hx => s.reg_setReg_ne _ hx.symm, rfl⟩

/-- Settles O32: the sum of two bytes is the sum modulo 256. -/
theorem addImmediateWrapsWithoutFlag : Obligations.AddImmediateWrapsWithoutFlag := by
  unfold Obligations.AddImmediateWrapsWithoutFlag
  intro x nn s
  refine ⟨_, rfl, ?_, fun r => s.reg_setReg_ne _, rfl⟩
  rw [State.reg_advance, State.reg_setReg_same, BitVec.toNat_add]

/-- Settles O33: each operation on bytes is the one on their bits. -/
theorem bitwiseOperations : Obligations.BitwiseOperations := by
  unfold Obligations.BitwiseOperations
  intro x y s
  refine ⟨⟨_, rfl, fun k => ?_, fun r => s.reg_setReg_ne _, rfl⟩, ⟨_, rfl, fun k => ?_, fun r => s.reg_setReg_ne _, rfl⟩,
    ⟨_, rfl, fun k => ?_, fun r => s.reg_setReg_ne _, rfl⟩⟩
  · rw [State.reg_advance, State.reg_setReg_same, BitVec.getLsbD_or]
  · rw [State.reg_advance, State.reg_setReg_same, BitVec.getLsbD_and]
  · rw [State.reg_advance, State.reg_setReg_same, BitVec.getLsbD_xor]

/-- Settles O37: what the mask leaves of the draw, bit by bit and as a number. -/
theorem randomByteIsMasked : Obligations.RandomByteIsMasked := by
  unfold Obligations.RandomByteIsMasked
  intro x nn s
  have hx : (s.setReg x (s.rnd &&& nn)).advance.reg x = s.rnd &&& nn := s.reg_setReg_same x _
  refine ⟨_, rfl, hx, fun k hk => ?_, ?_, rfl⟩
  · rw [hx, BitVec.getLsbD_and, hk, Bool.and_false]
  · rw [hx, BitVec.toNat_and]
    exact Nat.and_le_right

end Sys2Proof.Machine
end

section
/-! PROOFS. The index register and memory (43_index_memory.md): the values loaded into `I` as numbers, the decimal digits of
a byte, and the runs of bytes that BCD and STM store and LDM loads. -/

namespace Sys2Proof.Machine

/-! ### The values of the index register (R152, R153) -/

theorem State.indexPlus_toNat (s : State) (x : RegId) :
    (s.indexPlus x).toNat = (s.index.toNat + (s.reg x).toNat) % 65536 := by
  rw [State.indexPlus, BitVec.toNat_add, BitVec.toNat_setWidth_of_le (by decide)]

/-- The glyph's address fits in 16 bits for every byte (R153). -/
theorem State.glyphAddr_toNat (s : State) (x : RegId) : (s.glyphAddr x).toNat = (s.reg x).toNat * 5 := by
  have hx := (s.reg x).isLt
  rw [State.glyphAddr, BitVec.toNat_mul, BitVec.toNat_setWidth_of_le (by decide)]
  exact Nat.mod_eq_of_lt (show (s.reg x).toNat * 5 < 2 ^ 16 by omega)

/-- Settles O38: the word from its two fields, and the address as a number; LDX writes `I` and `pc` alone. -/
theorem indexIsLoaded : Obligations.IndexIsLoaded := by
  unfold Obligations.IndexIsLoaded
  intro nnn s
  exact ⟨formatA_toNat 0xA nnn, _, rfl, target_toNat nnn, rfl, rfl, rfl⟩

/-- Settles O39: the sum wraps and the product does not; both instructions write `I` and `pc` alone. -/
theorem indexArithmetic : Obligations.IndexArithmetic := by
  unfold Obligations.IndexArithmetic
  intro x s
  constructor
  · exact ⟨_, rfl, s.indexPlus_toNat x, fun _ => rfl, rfl, rfl⟩
  · exact ⟨_, rfl, s.glyphAddr_toNat x, fun _ => rfl, rfl, rfl⟩

/-! ### The digits of a byte, stored by BCD (R154) -/

/-- The byte at offset `k` of a run that was written. -/
theorem Memory.read_writeBytes_getElem (m : Memory) (a : Nat) {bs : List Byte} {k : Nat} (hk : k < bs.length) :
    (m.writeBytes a bs).read (a + k) = bs[k] := by
  rw [Memory.read_writeBytes, dif_pos ⟨by omega, by omega⟩]
  simp only [Nat.add_sub_cancel_left]

/-- Bytes are divided as the numbers they stand for. -/
theorem decimalDigits_getElem_toNat (b : Byte) {k : Nat} (hk : k < (decimalDigits b).length) :
    (decimalDigits b)[k].toNat = [b.toNat / 100, b.toNat / 10 % 10, b.toNat % 10][k] :=
  match k, hk with
  | 0, _ | 1, _ | 2, _ => rfl

/-- BCD inside memory: the byte at `I + k` reads as digit `k` afterwards (R154). -/
theorem exec_bcd_read {s t : State} {x : RegId} (hin : s.dataAddr + 2 ≤ 0xFFF) (h : exec (.bcd x) s = .next t)
    {k : Nat} (hk : k < 3) : (t.mem.read (s.dataAddr + k)).toNat =
      [(s.reg x).toNat / 100, (s.reg x).toNat / 10 % 10, (s.reg x).toNat % 10][k] := by
  have hf : faultIn s (.bcd x) = none := if_neg (Nat.not_lt.2 hin)
  obtain rfl := Host.Outcome.next.inj ((exec_bcd_of_noFault hf).symm.trans h)
  have hlen : k < (decimalDigits (s.reg x)).length := hk
  rw [State.advance_mem, Memory.read_writeBytes_getElem _ _ hlen]
  exact decimalDigits_getElem_toNat (s.reg x) hlen

/-- Settles O40: the three bytes BCD stores read as the digits, and its frame gives the bytes it leaves alone. -/
theorem bcdStoresThreeDigits : Obligations.BcdStoresThreeDigits := by
  unfold Obligations.BcdStoresThreeDigits
  intro x s
  refine ⟨fun hout => exec_of_fault (if_pos hout), fun hin => ?_⟩
  have he := exec_bcd_of_noFault (s := s) (x := x) (if_neg (Nat.not_lt.2 hin))
  have hdigit {k : Nat} (hk : k < 3) := exec_bcd_read hin he hk
  exact ⟨_, he, hdigit (k := 0) (by decide), hdigit (k := 1) (by decide), hdigit (k := 2) (by decide),
    fun a ha => frame_of_exec he (.byte a) ha, rfl, rfl, rfl⟩

/-! ### Registers stored and loaded (R155, R156) -/

/-- STM inside memory, with the register named by its id (R155). -/
theorem exec_stm_read_reg {s t : State} {x : RegId} (hin : s.dataAddr + x.toNat ≤ 0xFFF) (h : exec (.stm x) s = .next t)
    {k : RegId} (hk : k.toNat ≤ x.toNat) : t.mem.read (s.dataAddr + k.toNat) = s.reg k := by
  rw [exec_stm_read hin h hk, BitVec.ofNat_toNat, BitVec.setWidth_eq]

/-- LDM inside memory: register `k` reads as the byte at `I + k` (R156). -/
theorem exec_ldm_reg {s t : State} {x : RegId} (hin : s.dataAddr + x.toNat ≤ 0xFFF) (h : exec (.ldm x) s = .next t)
    {k : RegId} (hk : k.toNat ≤ x.toNat) : t.reg k = s.mem.read (s.dataAddr + k.toNat) := by
  have hf : faultIn s (.ldm x) = none := if_neg (Nat.not_lt.2 hin)
  obtain rfl := Host.Outcome.next.inj ((exec_ldm_of_noFault hf).symm.trans h)
  have hlen := s.mem.readBytes_length s.dataAddr (x.toNat + 1)
  have hx := x.isLt
  rw [State.reg_advance, State.reg_setRegs _ _ _ _ (by omega), dif_pos ⟨by omega, by omega⟩, Memory.readBytes_getElem,
    Nat.sub_zero]

/-- Settles O41: the bytes STM stores read as the registers, and its frame gives the bytes it leaves alone. -/
theorem storeRegistersAtIndex : Obligations.StoreRegistersAtIndex := by
  unfold Obligations.StoreRegistersAtIndex
  intro x s
  refine ⟨fun hout => exec_of_fault (if_pos hout), fun hin => ?_⟩
  have he := exec_stm_of_noFault (s := s) (x := x) (if_neg (Nat.not_lt.2 hin))
  exact ⟨_, he, fun k => exec_stm_read_reg hin he, fun a ha => frame_of_exec he (.byte a) ha, rfl⟩

/-- Settles O42: the registers LDM loads read as the bytes, and its frame gives the registers it leaves alone. -/
theorem loadRegistersFromIndex : Obligations.LoadRegistersFromIndex := by
  unfold Obligations.LoadRegistersFromIndex
  intro x s
  refine ⟨fun hout => exec_of_fault (if_pos hout), fun hin => ?_⟩
  have he := exec_ldm_of_noFault (s := s) (x := x) (if_neg (Nat.not_lt.2 hin))
  obtain ⟨v, hv⟩ := s.setRegs_eq (s.mem.readBytes s.dataAddr (x.toNat + 1)) 0
  refine ⟨_, he, fun k => exec_ldm_reg hin he, fun k hk => frame_of_exec he (.reg k) (Nat.not_le.2 hk), ?_⟩
  rw [State.advance_pc, hv]

/-- Settles O43: STM leaves `I`, so LDM loads each register from the byte where STM put it. -/
theorem loadAfterStoreRestoresRegisters : Obligations.LoadAfterStoreRestoresRegisters := by
  unfold Obligations.LoadAfterStoreRestoresRegisters
  intro x s t u hin hstore hmem hindex
  have hkept : t.index = s.index := frame_of_exec hstore .index (by simp [mayWrite, Instr.mnemonic])
  have hbase : u.dataAddr = s.dataAddr := congrArg BitVec.toNat (hindex.trans hkept)
  obtain ⟨w, hload, hregs, -, -⟩ := (loadRegistersFromIndex x u).2 (hbase ▸ hin)
  refine ⟨w, hload, fun k hk => ?_⟩
  calc w.reg k
    _ = u.mem.read (u.dataAddr + k.toNat) := hregs k hk
    _ = t.mem.read (s.dataAddr + k.toNat) := by rw [hmem, hbase]
    _ = s.reg k := exec_stm_read_reg hin hstore hk

end Sys2Proof.Machine
end

section
/-! PROOFS. The display (44_display.md): the cleared framebuffer, and the pixels and the collision of a draw in terms of
the pixels its sprite covers. -/

namespace Sys2Proof.Machine

/-! ### CLS (R171) -/

theorem Framebuffer.pixel_replicate_zero (px py : Nat) :
    Framebuffer.pixel (Vector.replicate 32 0) px py = false := by
  rw [Framebuffer.pixel, Vector.getElem_replicate]
  exact BitVec.getLsbD_zero

/-- Settles O46: a row of zeros has every pixel off; CLS writes the framebuffer, `dirty` and `pc` alone. -/
theorem clearTurnsEveryPixelOff : Obligations.ClearTurnsEveryPixelOff := by
  unfold Obligations.ClearTurnsEveryPixelOff
  refine ⟨rfl, fun s => ⟨_, rfl, fun px py => ?_, rfl, rfl, rfl, rfl⟩⟩
  exact Framebuffer.pixel_replicate_zero px py

/-! ### The pixels a sprite covers, and a draw in terms of them (R172 to R175) -/

/-- The bits of the rows read from memory fall on the pixels `spriteCovers` names (R173, R174). -/
theorem spriteCovers_iff_rowsCover (s : State) (x y : RegId) (n : Nibble) (px : Fin 64) (py : Fin 32) :
    spriteCovers s x y n px py = true ↔
      rowsCover (s.reg x).toNat (s.reg y).toNat (s.mem.readBytes s.dataAddr n.toNat) px py := by
  simp only [spriteCovers, rowsCover, spriteBit, List.any_eq_true, List.mem_range, Bool.and_eq_true, beq_iff_eq,
    Memory.readBytes_getElem, Memory.readBytes_length, exists_prop]

/-- What a draw does: with at most 15 rows no two bits of a sprite fall on one pixel, also where they wrap, so each covered
pixel is toggled once (R172, R173, R175). -/
theorem State.drawn_spec (s : State) (x y : RegId) (n : Nibble) :
    (∀ (px : Fin 64) (py : Fin 32),
      (s.drawn x y n).1.pixel px py = (s.fb.pixel px py ^^ spriteCovers s x y n px py)) ∧
    ((s.drawn x y n).2 = true ↔
      ∃ (px : Fin 64) (py : Fin 32), spriteCovers s x y n px py = true ∧ s.fb.pixel px py = true) := by
  have hrows : (s.mem.readBytes s.dataAddr n.toNat).length ≤ 32 := by
    rw [Memory.readBytes_length]
    have hn := n.isLt
    omega
  obtain ⟨hon, hoff, hcollides⟩ := drawSprite_spec s.fb (s.reg x).toNat (s.reg y).toNat _ hrows
  simp only [← spriteCovers_iff_rowsCover] at hon hoff hcollides
  refine ⟨fun px py => ?_, hcollides⟩
  cases hcover : spriteCovers s x y n px py with
  | true => rw [Bool.xor_true]; exact hon px py hcover
  | false => rw [Bool.xor_false]; exact hoff px py (ne_true_of_eq_false hcover)

/-- DRW has no fault where its rows are inside memory or its height is 0 (R172, R214). -/
theorem faultIn_drw_of_inside {s : State} {n : Nibble} (x y : RegId)
    (hin : n.toNat = 0 ∨ s.dataAddr + n.toNat - 1 ≤ 0xFFF) : faultIn s (.drw x y n) = none :=
  if_neg (by omega)

theorem flagOf_eq_one_iff (c : Bool) : flagOf c = 1 ↔ c = true := by cases c <;> decide

/-- What a draw inside memory leaves in the pixels and in `VF`. -/
theorem exec_drw_display {s t : State} {x y : RegId} {n : Nibble} (hin : n.toNat = 0 ∨ s.dataAddr + n.toNat - 1 ≤ 0xFFF)
    (h : exec (.drw x y n) s = .next t) :
    (∀ (px : Fin 64) (py : Fin 32), t.fb.pixel px py = (s.fb.pixel px py ^^ spriteCovers s x y n px py)) ∧
    t.reg flagReg = flagOf (s.drawn x y n).2 := by
  obtain rfl := Host.Outcome.next.inj ((exec_drw_of_noFault (faultIn_drw_of_inside x y hin)).symm.trans h)
  exact ⟨(s.drawn_spec x y n).1, State.reg_setReg_same _ flagReg _⟩

/-- Settles O47: the check of the rows decides between the fault and the draw, and the flag is the collision. -/
theorem drawTogglesTheSpritePixels : Obligations.DrawTogglesTheSpritePixels := by
  unfold Obligations.DrawTogglesTheSpritePixels
  intro x y n s
  refine ⟨fun hout => exec_of_fault (if_pos hout), fun hin => ?_⟩
  have he := exec_drw_of_noFault (faultIn_drw_of_inside x y hin)
  obtain ⟨hpixels, hflag⟩ := exec_drw_display hin he
  have hcollides := (s.drawn_spec x y n).2
  refine ⟨_, he, hpixels, fun hon => ?_, fun hoff => ?_, rfl, rfl, rfl⟩
  · exact hflag.trans ((flagOf_eq_one_iff _).2 (hcollides.2 hon))
  · rw [hflag, eq_false_of_ne_true (mt hcollides.1 hoff)]; rfl

/-! ### Drawing twice -/

/-- DRW leaves `I` and memory, so a second draw from the same coordinates reads the same sprite. -/
theorem exec_drw_keeps_sprite {s t : State} {x y : RegId} {n : Nibble} (h : exec (.drw x y n) s = .next t)
    (hx : t.reg x = s.reg x) (hy : t.reg y = s.reg y) :
    t.dataAddr = s.dataAddr ∧ spriteCovers t x y n = spriteCovers s x y n := by
  have hindex : t.index = s.index := frame_of_exec h .index (by simp [mayWrite, Instr.mnemonic])
  have hbase : t.dataAddr = s.dataAddr := congrArg BitVec.toNat hindex
  have hmem (a : Nat) : t.mem.read a = s.mem.read a := frame_of_exec h (.byte a) id
  refine ⟨hbase, funext₂ fun px py => ?_⟩
  simp only [spriteCovers, hbase, hmem, hx, hy]

/-- Settles O48: toggling the same pixels twice restores them, and the second draw collides with a covered pixel that the
first turned on. -/
theorem drawingTwiceRestoresTheDisplay : Obligations.DrawingTwiceRestoresTheDisplay := by
  unfold Obligations.DrawingTwiceRestoresTheDisplay
  intro x y n s t u hin hfirst hx hy hsecond
  obtain ⟨hbase, hcover⟩ := exec_drw_keeps_sprite hfirst hx hy
  obtain ⟨hpixels, -⟩ := exec_drw_display hin hfirst
  obtain ⟨hpixels', hflag⟩ := exec_drw_display (hbase ▸ hin) hsecond
  constructor
  · intro px py
    rw [hpixels', hpixels, hcover, Bool.xor_assoc, Bool.xor_self, Bool.xor_false]
  · rw [hflag, flagOf_eq_one_iff, (t.drawn_spec x y n).2, hcover]
    refine exists₂_congr fun px py => and_congr_right fun hc => ?_
    rw [hpixels, hc, Bool.xor_true, Bool.not_eq_true']

end Sys2Proof.Machine
end

section
/-! PROOFS. Keypad and timers (45_keypad_timers.md): the scan for the highest pressed key, WKEY and the cycle that waits by
what the scan answers, the key skips, and the moves between registers and timers. -/

namespace Sys2Proof.Machine

/-! ### The scan for the highest pressed key (R198) -/

/-- The scan of `highestPressed` over the first `n` keys only. -/
def highestPressedBelow (keys : Vector Bool 16) (n : Nat) : Option RegId :=
  (List.range n).foldl (fun k i => if keys.getD i false then some (BitVec.ofNat 4 i) else k) none

theorem highestPressed_eq_below (keys : Vector Bool 16) : highestPressed keys = highestPressedBelow keys 16 := rfl

/-- Key `n`, scanned last, overwrites what the scan found below it. -/
theorem highestPressedBelow_succ (keys : Vector Bool 16) {n : Nat} (hn : n < 16) :
    highestPressedBelow keys (n + 1) = if keys[n] then some (BitVec.ofNat 4 n) else highestPressedBelow keys n := by
  have hkey : keys.getD n false = keys[n] := by simp [Vector.getD, hn]
  simp only [highestPressedBelow, List.range_succ, List.foldl_append, List.foldl_cons, List.foldl_nil, hkey]

theorem keyId_toNat {n : Nat} (hn : n < 16) : (BitVec.ofNat 4 n).toNat = n := Nat.mod_eq_of_lt hn

/-- What the scan finds is pressed. -/
theorem pressed_of_highestPressedBelow {keys : Vector Bool 16} {n : Nat} (hn : n ≤ 16) {k : RegId}
    (h : highestPressedBelow keys n = some k) : keys[k.toNat] = true := by
  induction n with
  | zero => cases h
  | succ n ih =>
    rw [highestPressedBelow_succ keys hn] at h
    split at h
    case isTrue hkey =>
      obtain rfl := Option.some.inj h
      simp only [keyId_toNat hn, hkey]
    case isFalse => exact ih (Nat.le_of_succ_le hn) h

/-- The scan misses no pressed key: it finds that key or a higher one. -/
theorem exists_highestPressedBelow_ge {keys : Vector Bool 16} {j : Fin 16} (hkey : keys[j] = true) {n : Nat}
    (hn : n ≤ 16) (hj : j.val < n) : ∃ k : RegId, highestPressedBelow keys n = some k ∧ j.val ≤ k.toNat := by
  induction n with
  | zero => exact absurd hj (Nat.not_lt_zero _)
  | succ n ih =>
    rw [highestPressedBelow_succ keys hn]
    split
    case isTrue => exact ⟨_, rfl, by rw [keyId_toNat hn]; exact Nat.le_of_lt_succ hj⟩
    case isFalse hoff =>
      have hne : j.val ≠ n := by
        rintro rfl
        exact hoff hkey
      exact ih (Nat.le_of_succ_le hn) (by omega)

theorem pressed_of_highestPressed {keys : Vector Bool 16} {k : RegId} (h : highestPressed keys = some k) :
    keys[k.toNat] = true := by
  rw [highestPressed_eq_below] at h
  exact pressed_of_highestPressedBelow le_rfl h

theorem exists_highestPressed_ge {keys : Vector Bool 16} {j : Fin 16} (hkey : keys[j] = true) :
    ∃ k : RegId, highestPressed keys = some k ∧ j.val ≤ k.toNat := by
  rw [highestPressed_eq_below]
  exact exists_highestPressedBelow_ge hkey le_rfl j.isLt

theorem highestPressed_eq_none_iff (keys : Vector Bool 16) :
    highestPressed keys = none ↔ ∀ j : Fin 16, keys[j] = false := by
  constructor
  · refine fun hnone j => eq_false_of_ne_true fun hj => ?_
    obtain ⟨m, hm, -⟩ := exists_highestPressed_ge hj
    cases hnone.symm.trans hm
  · refine fun hoff => Option.eq_none_iff_forall_ne_some.2 fun m hm => ?_
    exact Bool.false_ne_true ((hoff ⟨m.toNat, m.isLt⟩).symm.trans (pressed_of_highestPressed hm))

theorem highestPressed_eq_some_iff (keys : Vector Bool 16) (k : RegId) :
    highestPressed keys = some k ↔ keys[k.toNat] = true ∧ ∀ j : Fin 16, k.toNat < j.val → keys[j] = false := by
  constructor
  · refine fun hsome => ⟨pressed_of_highestPressed hsome, fun j hkj => eq_false_of_ne_true fun hj => ?_⟩
    obtain ⟨m, hm, hjm⟩ := exists_highestPressed_ge hj
    obtain rfl : k = m := Option.some.inj (hsome.symm.trans hm)
    exact absurd hjm (Nat.not_le.2 hkj)
  · rintro ⟨hkey, habove⟩
    obtain ⟨m, hm, hkm⟩ := exists_highestPressed_ge (j := ⟨k.toNat, k.isLt⟩) hkey
    have hmk : ¬ k.toNat < m.toNat := fun hlt =>
      Bool.false_ne_true ((habove ⟨m.toNat, m.isLt⟩ hlt).symm.trans (pressed_of_highestPressed hm))
    rw [hm, BitVec.eq_of_toNat_eq (Nat.le_antisymm (Nat.not_lt.1 hmk) hkm)]

/-- Settles O49: what the scan finds is pressed, and it finds a key at least as high as any pressed one. -/
theorem highestPressedIsTheLargestKey : Obligations.HighestPressedIsTheLargestKey := by
  unfold Obligations.HighestPressedIsTheLargestKey
  exact fun keys => ⟨highestPressed_eq_none_iff keys, highestPressed_eq_some_iff keys⟩

/-! ### WKEY and the waiting cycle (R193) -/

/-- The number of a key as the byte a register takes. -/
theorem keyByte_toNat (k : RegId) : (k.setWidth 8).toNat = k.toNat := BitVec.toNat_setWidth_of_le (by decide)

/-- Settles O50: what WKEY does by the answer of the scan. -/
theorem waitForKeyResolvesOrWaits : Obligations.WaitForKeyResolvesOrWaits := by
  unfold Obligations.WaitForKeyResolvesOrWaits
  intro x s
  refine ⟨fun hnone => ?_, fun k hsome => ?_⟩
  · exact ⟨_, exec_wkey_of_none x hnone, rfl, rfl, fun _ => rfl⟩
  · refine ⟨_, exec_wkey_of_some x hsome, ?_, rfl, rfl⟩
    rw [State.reg_advance, State.reg_setReg_same, keyByte_toNat]

theorem State.pollKey_of_none {s : State} (t : RegId) (h : highestPressed s.keys = none) : s.pollKey t = s := by
  simp only [State.pollKey, h]

theorem State.pollKey_of_some {s : State} (t : RegId) {k : RegId} (h : highestPressed s.keys = some k) :
    s.pollKey t = { (s.setReg t (k.setWidth 8)).advance with mode := .running } := by
  simp only [State.pollKey, h]

/-- Settles O51: in place of the fetch the key poll runs on the cycle's keys, and it writes `V[w]`, `pc` and the mode or
nothing. -/
theorem waitingCyclePollsTheKeys : Obligations.WaitingCyclePollsTheKeys := by
  unfold Obligations.WaitingCyclePollsTheKeys
  intro s w hm
  rw [step_of_awaitingKey hm]
  refine ⟨fun hnone => ?_, fun k hsome => ?_⟩
  · rw [State.pollKey_of_none w hnone]
  · rw [State.pollKey_of_some w hsome]
    have hw : (s.deliver.setReg w (k.setWidth 8)).reg w = k.setWidth 8 := State.reg_setReg_same _ w _
    exact ⟨_, rfl, (congrArg BitVec.toNat hw).trans (keyByte_toNat k), fun _ => State.reg_setReg_ne _ _, rfl, rfl, rfl⟩

/-! ### The key skips (R191, R192, R197) -/

theorem State.skipIf_not_pc (s : State) (c : Bool) :
    (s.skipIf !c).pc = if c = true then s.pc + 2 else s.pc + 4 := by
  cases c <;> rfl

/-- Settles O52: where the register names a key both instructions complete with the skip, else both have the fault. -/
theorem keySkips : Obligations.KeySkips := by
  unfold Obligations.KeySkips
  intro x s
  refine ⟨fun hx => ?_, fun hx => ⟨exec_of_fault (if_pos hx), exec_of_fault (if_pos hx)⟩⟩
  have hf : faultIn s (.skp x) = none := if_neg (by omega)
  obtain ⟨_, hskp⟩ := exec_skp_of_noFault hf
  obtain ⟨_, hsknp⟩ := exec_sknp_of_noFault (x := x) hf
  exact ⟨⟨_, hskp, rfl⟩, ⟨_, hsknp, s.skipIf_not_pc _⟩⟩

/-! ### The timer moves (R194 to R196) -/

/-- Settles O53: the words from their fields; GDT writes one register, SDT and SST one timer, and each of them `pc`. -/
theorem timerMoves : Obligations.TimerMoves := by
  unfold Obligations.TimerMoves
  intro x s
  have hword (nn : Byte) : (formatXS 0xF x nn).toNat = 0xF000 + nn.toNat + x.toNat * 256 :=
    (formatXS_toNat 0xF x nn).trans (Nat.add_right_comm _ _ _)
  refine ⟨⟨hword 0x07, hword 0x15, hword 0x18⟩, ?_, ?_, ?_⟩
  · exact ⟨_, rfl, s.reg_setReg_same x _, rfl, rfl, fun hx => s.reg_setReg_ne _ hx.symm, rfl⟩
  · exact ⟨_, rfl, rfl, rfl, rfl, rfl, rfl⟩
  · exact ⟨_, rfl, rfl, rfl, rfl, rfl, rfl⟩

end Sys2Proof.Machine
end

section
/-! PROOFS. Exceptions (60_exceptions.md): the result of an instruction by the table of its faults, and a stack fault that
is raised again (R210 to R216). -/

namespace Sys2Proof.Machine

/-- Settles O19: where the tables list no fault the result `ok` stands, and where they list one it is taken. -/
theorem instructionsFaultExactlyAsListed : Obligations.InstructionsFaultExactlyAsListed := by
  unfold Obligations.InstructionsFaultExactlyAsListed
  intro i s t hs h
  cases hf : faultIn s i with
  | none =>
    obtain ⟨u, hu, hresult⟩ := exec_result_of_noFault hf
    obtain rfl : u = t := Host.Outcome.next.inj (hu.symm.trans h)
    exact hresult.trans hs
  | some f =>
    obtain rfl : s.raise f = t := Host.Outcome.next.inj ((exec_of_fault hf).symm.trans h)
    rfl

/-- No fault depends on the result that an earlier fault has left (R88, R219). -/
theorem faultIn_raise (s : State) (f : Fault) (i : Instr) : faultIn (s.raise f) i = faultIn s i := rfl

/-- An instruction with a fault writes the result alone, and executed again it raises the same fault and leaves the state
as it is. -/
theorem exec_of_fault_repeats {s : State} {i : Instr} {f : Fault} (h : faultIn s i = some f) :
    ∃ t, exec i s = .next t ∧ t.result = .fault f ∧ (∀ it : Item, it ≠ .result → it.same s t) ∧
      exec i t = .next t :=
  ⟨s.raise f, exec_of_fault h, rfl, fun _ => Item.same_raise s f, exec_of_fault ((faultIn_raise s f i).trans h)⟩

/-- Settles O22: the stack pointer at its bound is the fault of CALL, and at 0 that of RET. -/
theorem stackFaultsChangeNothing : Obligations.StackFaultsChangeNothing := by
  unfold Obligations.StackFaultsChangeNothing
  constructor
  · exact fun nnn s hsp => exec_of_fault_repeats (i := .call nnn) (if_pos hsp)
  · exact fun s hsp => exec_of_fault_repeats (i := .ret) (if_pos hsp)

end Sys2Proof.Machine
end

section
/-! PROOFS. The timer tick (R223 to R225): what it does by whether the accumulated time reaches the period, and what several
ticks in a row do to the timers. -/

namespace Sys2Proof.Machine

/-! ### One tick (R223) -/

theorem State.tickFires_iff (s : State) : s.tickFires = true ↔ 1 / 60 ≤ s.acc.toRat + s.elapsed.toRat := by
  rw [State.tickFires, Time.le_iff, Time.toRat_add, Time.toRat_tickPeriod]

theorem byte_bne_zero_iff (b : Byte) : (b != 0) = true ↔ 0 < b.toNat := by
  rw [bne_iff_ne, ne_eq, ← BitVec.toNat_inj, Nat.pos_iff_ne_zero]
  rfl

/-- A timer at 0 stays there, and one above 0 loses one without wrapping. -/
theorem timerAfter_true_toNat (b : Byte) : (timerAfter true b).toNat = b.toNat - 1 := by
  simp only [timerAfter, Bool.true_and, byte_bne_zero_iff]
  split
  case isTrue hpos => bv_omega
  case isFalse hzero => omega

/-- A tick whose accumulated time reaches the period. -/
theorem State.timerTick_of_reached {s : State} (h : 1 / 60 ≤ s.acc.toRat + s.elapsed.toRat) :
    s.timerTick.acc.toRat = 0 ∧ s.timerTick.delay.toNat = s.delay.toNat - 1 ∧
    s.timerTick.sound.toNat = s.sound.toNat - 1 ∧ (s.timerTick.tone = true ↔ 0 < s.sound.toNat) := by
  have hfires := s.tickFires_iff.2 h
  rw [State.timerTick_acc, State.timerTick_delay, State.timerTick_sound, State.timerTick_tone, hfires]
  exact ⟨Time.toRat_zero, timerAfter_true_toNat _, timerAfter_true_toNat _, byte_bne_zero_iff _⟩

/-- A tick whose accumulated time stays below the period. -/
theorem State.timerTick_of_below {s : State} (h : s.acc.toRat + s.elapsed.toRat < 1 / 60) :
    s.timerTick.acc.toRat = s.acc.toRat + s.elapsed.toRat ∧ s.timerTick.delay = s.delay ∧
    s.timerTick.sound = s.sound ∧ s.timerTick.tone = false := by
  have hfires : s.tickFires = false := eq_false_of_ne_true fun hf => (s.tickFires_iff.1 hf).not_gt h
  rw [State.timerTick_acc, State.timerTick_delay, State.timerTick_sound, State.timerTick_tone, hfires]
  exact ⟨Time.toRat_add _ _, rfl, rfl, rfl⟩

theorem Item.same_timerTick_of_notMem (s : State) {it : Item} (h : it ∉ [Item.acc, .delay, .sound, .tone]) :
    it.same s s.timerTick := by
  cases it with
  | acc | delay | sound | tone => exact absurd (by simp) h
  | _ => rfl

/-- Settles O54: the comparison with the period is exact, and decides between the two ticks. -/
theorem timerTickFiresAtTheSixtieth : Obligations.TimerTickFiresAtTheSixtieth := by
  unfold Obligations.TimerTickFiresAtTheSixtieth
  exact fun s => ⟨State.timerTick_of_reached, State.timerTick_of_below, fun _ => Item.same_timerTick_of_notMem s⟩

/-! ### Several ticks in a row (R224, R225) -/

/-- One tick emits as many tones as it takes from the sound timer (R224). -/
theorem State.timerTick_tone_add_sound (s : State) :
    (if s.timerTick.tone then 1 else 0) + s.timerTick.sound.toNat = s.sound.toNat := by
  rcases le_or_gt (1 / 60) (s.acc.toRat + s.elapsed.toRat) with hreached | hbelow
  · obtain ⟨-, -, hsound, htone⟩ := State.timerTick_of_reached hreached
    simp only [hsound, htone]
    split <;> omega
  · obtain ⟨-, -, hsound, htone⟩ := State.timerTick_of_below hbelow
    rw [hsound, htone, if_neg Bool.false_ne_true, Nat.zero_add]

/-- The tick of a cycle with the elapsed time `e`. -/
def State.tickBy (s : State) (e : Time) : State := State.timerTick { s with elapsed := e }

theorem State.tickBy_of_reached {s : State} {e : Time} (h : 1 / 60 ≤ s.acc.toRat + e.toRat) :
    (s.tickBy e).acc.toRat = 0 ∧ (s.tickBy e).delay.toNat = s.delay.toNat - 1 := by
  obtain ⟨hacc, hdelay, -, -⟩ := State.timerTick_of_reached (s := { s with elapsed := e }) h
  exact ⟨hacc, hdelay⟩

theorem State.tickBy_of_below {s : State} {e : Time} (h : s.acc.toRat + e.toRat < 1 / 60) :
    (s.tickBy e).acc.toRat = s.acc.toRat + e.toRat ∧ (s.tickBy e).delay = s.delay := by
  obtain ⟨hacc, hdelay, -, -⟩ := State.timerTick_of_below (s := { s with elapsed := e }) h
  exact ⟨hacc, hdelay⟩

theorem tickRun_cons (e : Time) (es : List Time) (s : State) : tickRun (e :: es) s =
    ((if (s.tickBy e).tone then 1 else 0) + (tickRun es (s.tickBy e)).1, (tickRun es (s.tickBy e)).2) := rfl

/-- Settles O55: each tick of the run emits as many tones as it takes from the sound timer. -/
theorem tonesCountTheSoundTimer : Obligations.TonesCountTheSoundTimer := by
  unfold Obligations.TonesCountTheSoundTimer
  intro es
  induction es with
  | nil => exact fun s => Nat.zero_add _
  | cons e es ih =>
    intro s
    rw [tickRun_cons, Nat.add_assoc, ih (s.tickBy e)]
    exact State.timerTick_tone_add_sound { s with elapsed := e }

theorem totalTime_cons (e : Time) (es : List Time) : totalTime (e :: es) = e.toRat + totalTime es := by
  rw [totalTime, List.map_cons, List.sum_cons, totalTime]

theorem totalTime_nonneg (es : List Time) : 0 ≤ totalTime es :=
  List.sum_nonneg (List.forall_mem_map.2 fun e _ => e.toRat_nonneg)

/-- While all the accumulated time stays below the period no tick fires. -/
theorem tickRun_delay_of_below {es : List Time} : ∀ {s : State}, s.acc.toRat + totalTime es < 1 / 60 →
    (tickRun es s).2.delay = s.delay := by
  induction es with
  | nil => exact fun _ => rfl
  | cons e es ih =>
    intro s h
    rw [totalTime_cons] at h
    obtain ⟨hacc, hdelay⟩ := State.tickBy_of_below (s := s) (e := e) (by linarith [totalTime_nonneg es])
    have hrest : (s.tickBy e).acc.toRat + totalTime es < 1 / 60 := by rwa [hacc, add_assoc]
    exact (ih hrest).trans hdelay

/-- Settles O56: the first tick that fires empties the accumulator, and the time that is left is too short for another. -/
theorem shortWindowDecrementsAtMostOnce : Obligations.ShortWindowDecrementsAtMostOnce := by
  unfold Obligations.ShortWindowDecrementsAtMostOnce
  intro es
  induction es with
  | nil => exact fun s _ => ⟨Nat.le_succ _, le_rfl⟩
  | cons e es ih =>
    intro s h
    rw [totalTime_cons] at h
    have hrest : totalTime es < 1 / 60 := by linarith [e.toRat_nonneg]
    rw [tickRun_cons]
    rcases le_or_gt (1 / 60) (s.acc.toRat + e.toRat) with hreached | hbelow
    · obtain ⟨hacc, hdelay⟩ := State.tickBy_of_reached hreached
      rw [tickRun_delay_of_below (by rwa [hacc, zero_add]), hdelay]
      omega
    · obtain ⟨-, hdelay⟩ := State.tickBy_of_below hbelow
      rw [← hdelay]
      exact ih (s.tickBy e) hrest

end Sys2Proof.Machine
end

section
/-! PROOFS. The host's operations between cycles (R226, R227, R229): the load, the key events, and what the presenter reads
and clears. -/

namespace Sys2Proof.Machine

/-! ### The load (R229) -/

/-- The bytes of an image that the load copies, by their number. -/
theorem loaded_length (image : List Byte) : (image.take maxImage).length = min image.length 3584 := by
  rw [List.length_take, Nat.min_comm]
  rfl

theorem State.load_read {image : List Byte} (s : State) {k : Nat} (hk : k < 3584) (h : k < image.length) :
    (s.load image).mem.read (0x200 + k) = image[k] := by
  have hlen : k < (image.take maxImage).length := by
    rw [loaded_length]
    omega
  exact (Memory.read_writeBytes_getElem s.mem loadBase hlen).trans List.getElem_take

theorem Item.same_load (s : State) {image : List Byte} {it : Item}
    (h : ∀ a, 0x200 ≤ a → a < 0x200 + min image.length 3584 → it ≠ .byte a) : it.same s (s.load image) :=
  Item.same_writeBytes s fun a ha hlt => h a ha (loaded_length image ▸ hlt)

/-- Settles O57: the load is one run of bytes written from 0x200 on, and has the frame of such a run. -/
theorem loadCopiesTheImage : Obligations.LoadCopiesTheImage := by
  unfold Obligations.LoadCopiesTheImage
  intro image s
  refine ⟨fun k => s.load_read, fun a ha => ?_, fun it hit => Item.same_load s fun a _ _ => hit a⟩
  refine Item.same_load s (it := .byte a) fun b hb hlt e => ?_
  obtain rfl := Item.byte.inj e
  exact ha ⟨hb, hlt⟩

/-! ### The key events (R226) -/

theorem Item.same_setKey (s : State) {k : Nat} (hk : k < 16) (b : Bool) {it : Item} (h : it ≠ .key ⟨k, hk⟩) :
    it.same s { s with keys := s.keys.set k b } := by
  cases it with
  | key j => exact s.keys.getElem_set_ne hk j.isLt fun e => h (congrArg Item.key (Fin.ext e.symm))
  | _ => rfl

theorem State.keyDown_keyUp_of_lt (s : State) {k : Nat} (hk : k < 16) :
    s.keyDown k = { s with keys := s.keys.set k true } ∧ s.keyUp k = { s with keys := s.keys.set k false } := by
  simp only [State.keyDown, State.keyUp, KeyEvent.apply, dif_pos hk, and_self]

theorem State.keyDown_keyUp_of_gt (s : State) {k : Nat} (hk : 15 < k) : s.keyDown k = s ∧ s.keyUp k = s := by
  simp only [State.keyDown, State.keyUp, KeyEvent.apply, dif_neg (Nat.not_lt.2 hk), and_self]

/-- Settles O58: a key in range is one entry of the vector that is set, and a number out of range is none. -/
theorem keyEventsSetAndClearOneKey : Obligations.KeyEventsSetAndClearOneKey := by
  unfold Obligations.KeyEventsSetAndClearOneKey
  intro k s
  refine ⟨fun hk => ?_, s.keyDown_keyUp_of_gt⟩
  obtain ⟨hdown, hup⟩ := s.keyDown_keyUp_of_lt hk
  rw [hdown, hup]
  exact ⟨Vector.getElem_set_self hk, Vector.getElem_set_self hk,
    fun it hit => ⟨Item.same_setKey s hk true hit, Item.same_setKey s hk false hit⟩⟩

/-! ### The presenter (R227) -/

theorem Item.same_clearDirty (s : State) {it : Item} (h : it ≠ .dirty) : it.same s s.clearDirty := by
  cases it with
  | dirty => exact absurd rfl h
  | _ => rfl

theorem State.readFramebuffer_length (s : State) : s.readFramebuffer.length = 2048 := by
  rw [State.readFramebuffer, List.length_map, List.length_range]
  rfl

/-- Entry `y * 64 + x` of the view is the pixel in column `x`, row `y` (D25). -/
theorem State.readFramebuffer_getElem? (s : State) (x : Fin 64) (y : Fin 32) :
    s.readFramebuffer[y.val * 64 + x.val]? = some (s.fb.pixel x y) := by
  have hlt : y.val * 64 + x.val < fbHeight * fbWidth := by
    simp only [fbHeight, fbWidth]
    omega
  have hcolumn : (y.val * 64 + x.val) % fbWidth = x.val := by
    simp only [fbWidth]
    omega
  have hrow : (y.val * 64 + x.val) / fbWidth = y.val := by
    simp only [fbWidth]
    omega
  rw [State.readFramebuffer, List.getElem?_map, List.getElem?_range hlt, Option.map_some, hcolumn, hrow]

/-- Settles O59: the view lists the pixels row by row, and `dirty` is the one field the clearing writes. -/
theorem presenterReadsAndClears : Obligations.PresenterReadsAndClears := by
  unfold Obligations.PresenterReadsAndClears
  exact fun s => ⟨rfl, fun _ => Item.same_clearDirty s, s.readFramebuffer_length, s.readFramebuffer_getElem?⟩

end Sys2Proof.Machine
end

section
/-! PROOFS. The host's reset (R250). -/

namespace Sys2Proof.Machine

/-- The host's reset takes two fields from the state before it, the settled inputs and their counter (log 5). -/
theorem Item.same_hostReset (s : State) {it : Item} (hfeed : it ≠ .feed) (hcycles : it ≠ .cycles) :
    it.same State.reset s.hostReset := by
  cases it with
  | feed => exact absurd rfl hfeed
  | cycles => exact absurd rfl hcycles
  | _ => rfl

/-- Settles O8: every item but the two that are kept is the one of the state after reset. -/
theorem hostResetRestoresEveryItem : Obligations.HostResetRestoresEveryItem := by
  unfold Obligations.HostResetRestoresEveryItem
  exact fun s _ => Item.same_hostReset s

end Sys2Proof.Machine
end
